-- ==== Sys2Proof/Word.lean ====
section
/-! DEFINITION. The words of the block: the widths the spec fixes (00_scope.md R6, 30_encoding.md R60, R62, R68). -/

namespace Sys2Proof

/-- A table entry and the register `STATE`: 8 bits (R21, R62). -/
abbrev Byte := BitVec 8

/-- A time value (`TS_W` = 32, R6) and the counter (`CNT_W` = 32, R6). -/
abbrev Word := BitVec 32

/-- A pin sample, the two levels side by side as `B` then `A` (R60). -/
abbrev Sample := BitVec 2

/-- A command word: `CMD_W = TS_W + 5 = 37` bits (R68). -/
abbrev CmdWord := BitVec 37

end Sys2Proof
end

