-- ==== Sys2Proof/Syntax.lean ====
section
/-! DEFINITION. The operations of the block as abstract values with typed operands (30_encoding.md R68, R69), which the spec
calls its normative interface, and what a command word decodes to: one constructor for each row of
spec/opcode_table.json. -/

namespace Sys2Proof

/-- The event an `EDGE` emits (R61): a three-constructor type, as R61 allows. -/
inductive Event where
  | none
  | cw
  | ccw
  deriving DecidableEq, Repr

/-- The direction operand of `DETENT`: `EV_CW` or `EV_CCW`, never `EV_NONE` (R100). -/
inductive Direction where
  | cw
  | ccw
  deriving DecidableEq, Repr

/-- The two forms of the operand of `SET_MULT` (R112): the 32 bits of the bit-level interface, read under `MULT_FMT` (R70),
and the rational number of the abstract operation, which need not be a value of that format. -/
inductive MultOperand where
  | word (bits : Word)
  | value (q : Rat)
  deriving DecidableEq, Repr

/-- The operation type (R68, R69): what the contexts issue as an abstract value. It has no constructor for the reserved op
code (R71). -/
inductive Operation where
  | edge (sample : Sample) (now : Word)
  | drain
  | setVs (en : Bool)
  | setMult (m : MultOperand)
  | inject (v : Word)
  | init
  | detent (dir : Direction) (now : Word)
  deriving DecidableEq, Repr

/-- What a command word decodes to: one of the operations, or `reserved`, the refused word with op code `0b111`, which is a row
of the table but no operation (R71; log entry 3). Only a command word can be `reserved`: see `Command` and
`operationInstr`. -/
inductive Instr where
  | edge (sample : Sample) (now : Word)
  | drain
  | setVs (en : Bool)
  | setMult (m : MultOperand)
  | inject (v : Word)
  | init
  | detent (dir : Direction) (now : Word)
  | reserved
  deriving DecidableEq, Repr

/-- The two execution contexts that issue operations (60_exceptions.md R161). -/
inductive Context where
  | irq
  | poll
  deriving DecidableEq, Repr

end Sys2Proof
end

