-- ==== Sys2Proof/Config.lean ====
section
/-! DEFINITION. What a built instance fixes and no operation changes (00_scope.md R6, R7; 10_state.md R29): the types of the
build-time constants. Their values for this hardware stand in Machine/Tables.lean. The spec decides every value it leaves to
an implementation (92_eei_decisions.md), so there is no opaque constant here; each parameter that file lists as OPEN is a field
of `Config`, but for the two widths `TS_W` and `CNT_W`, which are the type `Word` (log entry 6). -/

namespace Sys2Proof

/-- The decoding mode, fixed at build time (R6). -/
inductive Mode where
  | half
  | full
  deriving DecidableEq, Repr

/-- One row of the transition table `TT`: the entries of columns 0 to 3 (R41). -/
structure Row where
  s0 : Byte
  s1 : Byte
  s2 : Byte
  s3 : Byte
  deriving DecidableEq, Repr

/-- A control point of a speed curve: a threshold in milliseconds and a step in counter units (R29). -/
structure Point where
  x : Rat
  y : Rat
  deriving DecidableEq, Repr

/-- A speed curve: two control points (R102). -/
structure Curve where
  p1 : Point
  p2 : Point
  deriving DecidableEq, Repr

/-- The parameter `NUM` (and, as its last field, `ROUND`): the five functions of the step computation
(41_accumulator.md R118). -/
structure NumDomain where
  /-- ticks and `TICKS_PER_MS` to milliseconds (R101) -/
  toMs : Nat → Nat → Rat
  /-- a curve and an interval in milliseconds to the raw step (R103) -/
  interpolate : Curve → Rat → Rat
  /-- the raw step times the multiplier (R104) -/
  multiply : Rat → Rat → Rat
  /-- a value, the lower and the upper bound (R104) -/
  clamp : Rat → Rat → Rat → Rat
  /-- the clamped step to an integer (R104) -/
  round : Rat → Int

/-- The parameters of a built instance (R6). -/
structure Config where
  mode : Mode
  /-- `TT`, row 0 first (R41) -/
  table : List Row
  /-- the increment curve `INC_P1`, `INC_P2` -/
  inc : Curve
  /-- the decrement curve `DEC_P1`, `DEC_P2` -/
  dec : Curve
  clampLo : Rat
  clampHi : Rat
  /-- `TICKS_PER_MS` -/
  ticksPerMs : Nat
  num : NumDomain
  /-- `MULT_FMT`: the rational number 32 bits denote, `none` where they denote none (R70) -/
  multFmt : Word → Option Rat
  /-- `TS_RESET` -/
  tsReset : Word
  /-- `VS_EN_RESET` -/
  vsEnReset : Bool
  /-- `MULT_RESET` -/
  multReset : Rat

/-- `N`, the number of rows of a mode's table (R6). -/
def Mode.rows : Mode → Nat
  | .half => 6
  | .full => 7

end Sys2Proof
end

