-- ==== Sys2Proof/WellFormed.lean ====
section
/-! DEFINITION. Which instructions have a command word, and which transition tables the spec admits (30_encoding.md R66). -/

namespace Sys2Proof

/-- The instruction has a command word (R69). The typed operands leave one check: a multiplier given as a rational number
has no bits; only a `MULT_FMT` word has (R70). The abstract operation runs all the same (R68). -/
def Instr.wf : Instr → Bool
  | .edge _ _ => true
  | .drain => true
  | .setVs _ => true
  | .setMult (.word _) => true
  | .setMult (.value _) => false
  | .inject _ => true
  | .init => true
  | .detent _ _ => true
  | .reserved => true

/-- A row's four entries, column 0 first. -/
def Row.entries (r : Row) : List Byte := [r.s0, r.s1, r.s2, r.s3]

/-- R66: exactly `N` rows of four columns (a), an entry for each (b), whose low nibble is below `N` (c). Being a function (d)
and constant (e) hold by the type. -/
def Config.tableWf (c : Config) : Bool :=
  c.table.length == c.mode.rows &&
    c.table.all fun r => r.entries.all fun e => (e.extractLsb' 0 4).toNat < c.mode.rows

/-- What R66 says of both tables in addition: every high nibble is `0x0`, `0x1` or `0x2`. -/
def Config.tableTidy (c : Config) : Bool :=
  c.table.all fun r => r.entries.all fun e => (e.extractLsb' 4 4).toNat < 3

end Sys2Proof
end

