-- ==== Sys2Proof/Decode.lean ====
section
/-! DEFINITION. The command word (30_encoding.md R68 to R71): `CMD[2:0]` is the op code, `ARG = CMD[36:3]`. Decoding is total:
the eight op codes are the eight rows of the table, and unused bits of `ARG` are ignored (R68). The encoder writes unused
bits as 0. -/

namespace Sys2Proof

/-- `CMD[2:0]` (R68). -/
def opCode (w : CmdWord) : BitVec 3 := w.extractLsb' 0 3

/-- The direction bit of `DETENT`: 0 = CW, 1 = CCW (R69). -/
def directionOfBit : Bool → Direction
  | false => .cw
  | true => .ccw

/-- The bit of a direction (R69). -/
def Direction.bit : Direction → Bool
  | .cw => false
  | .ccw => true

/-- The operation a command word denotes (R69). -/
def decode (w : CmdWord) : Instr :=
  match (opCode w).toNat with
  | 0 => .edge (w.extractLsb' 3 2) (w.extractLsb' 5 32)
  | 1 => .drain
  | 2 => .setVs (w.getLsbD 3)
  | 3 => .setMult (.word (w.extractLsb' 3 32))
  | 4 => .inject (w.extractLsb' 3 32)
  | 5 => .init
  | 6 => .detent (directionOfBit (w.getLsbD 3)) (w.extractLsb' 4 32)
  | _ => .reserved

/-- Why a number is no command word. -/
inductive Reject where
  /-- the number has a bit at position 37 or above: a command word has 37 bits (R68) -/
  | tooWide
  deriving DecidableEq, Repr

/-- Decoding any number, bit 0 the least significant bit of the word (R8). -/
def decodeNumber (w : Nat) : Except Reject Instr :=
  if w < 2 ^ 37 then .ok (decode (BitVec.ofNat 37 w)) else .error .tooWide

/-- The instruction the decoder reads from an opcode-table word. A command word is one word of 37 bits (R72), so the number
of bits of the row in whole bytes adds nothing. -/
def decodeTableWord (_nbits w : Nat) : Option Instr :=
  match decodeNumber w with
  | .ok i => some i
  | .error _ => none

/-- The command word of an instruction, `none` for one that has none (R69). -/
def encode : Instr → Option CmdWord
  | .edge sample now => some ((now ++ sample ++ (0#3)).setWidth 37)
  | .drain => some 1#37
  | .setVs en => some ((BitVec.ofBool en ++ (2#3)).setWidth 37)
  | .setMult (.word bits) => some ((bits ++ (3#3)).setWidth 37)
  | .setMult (.value _) => none
  | .inject v => some ((v ++ (4#3)).setWidth 37)
  | .init => some 5#37
  | .detent dir now => some ((now ++ BitVec.ofBool dir.bit ++ (6#3)).setWidth 37)
  | .reserved => some 7#37

end Sys2Proof
end

