-- ==== Sys2Proof/Machine/Numeric.lean ====
section
/-! DEFINITION. The arithmetic primitives (00_scope.md R10) and the exact number domain (92_eei_decisions.md D9). -/

namespace Sys2Proof.Machine

/-- `wrap_32(x)` as the contents of a 32-bit register: `x` modulo 2^32, read back in two's complement by `BitVec.toInt`. -/
def wrapWord (x : Int) : Word := BitVec.ofInt 32 x

/-- `clamp(x, lo, hi) = min(max(x, lo), hi)`. -/
def clampQ (x lo hi : Rat) : Rat := min (max x lo) hi

/-- `round_half_up(x) = floor(x + 1/2)`. -/
def roundHalfUp (x : Rat) : Int := ⌊x + 1 / 2⌋

/-- The two-point interpolation (41_accumulator.md R103). Both thresholds belong to their flat side. -/
def interpolateQ (k : Curve) (dt : Rat) : Rat :=
  if dt ≤ k.p1.x then k.p1.y
  else if k.p2.x ≤ dt then k.p2.y
  else k.p1.y + (dt - k.p1.x) * (k.p2.y - k.p1.y) / (k.p2.x - k.p1.x)

/-- `NUM` and `ROUND` at their defaults: exact arithmetic over the rationals (D9), an exact division of ticks (D8), ties
upward (D10). -/
def exactNum : NumDomain where
  toMs ticks perMs := (ticks : Rat) / (perMs : Rat)
  interpolate := interpolateQ
  multiply a b := a * b
  clamp := clampQ
  round := roundHalfUp

end Sys2Proof.Machine
end

