-- ==== Sys2Proof/Machine/Operands.lean ====
section
/-! DEFINITION. The operand forms (30_encoding.md R60, R70, R74): the pin sample, the multiplier, the injected value. `now` and
`en` are used as they are (R70). -/

namespace Sys2Proof.Machine

/-- `sample = {B, A}` from the two channel levels, in the source's argument order `onEdge(pinA, pinB)` (R60, R74). -/
def sampleOfPins (pinA pinB : Bool) : Sample := BitVec.ofBool pinB ++ BitVec.ofBool pinA

/-- The source's `onEdge(pinA, pinB)`, with the time read in the same handler run, is `EDGE` on the sample of the two pins
(R74, R80). -/
def onEdge (pinA pinB : Bool) (now : Word) : Instr := .edge (sampleOfPins pinA pinB) now

/-- Column `s` of a row: `sample` is used unsigned as a column index (R60, R70). -/
def rowAt (r : Row) (s : Sample) : Byte :=
  match s.toNat with
  | 0 => r.s0
  | 1 => r.s1
  | 2 => r.s2
  | _ => r.s3

/-- `2^e` for an integer `e`. -/
def pow2 (e : Int) : Rat :=
  if 0 ≤ e then ((2 ^ e.toNat : Nat) : Rat) else 1 / ((2 ^ (-e).toNat : Nat) : Rat)

/-- `(-1)^sign`. -/
def signFactor (negative : Bool) : Rat := if negative then -1 else 1

/-- The rational number an IEEE-754 binary32 word denotes, `none` for the infinities and NaN (R70). Both zeros denote 0. -/
def binary32 (b : Word) : Option Rat :=
  let sgn := signFactor (b.getLsbD 31)
  let ex := (b.extractLsb' 23 8).toNat
  let frac : Rat := ((b.extractLsb' 0 23).toNat : Rat) / ((2 ^ 23 : Nat) : Rat)
  if ex = 255 then none
  else if ex = 0 then some (sgn * pow2 (-126) * frac)
  else some (sgn * pow2 ((ex : Int) - 127) * (1 + frac))

/-- The value of a multiplier operand: a rational number, or `none` where the word is not a number (R70, R114). -/
def multOperandValue (c : Config) : MultOperand → Option Rat
  | .word bits => c.multFmt bits
  | .value q => some q

/-- `v = to_signed_32(ARG[31:0])` (R70). -/
def injectValue (v : Word) : Int := v.toInt

end Sys2Proof.Machine
end

