-- ==== Sys2Proof/Machine/Tables.lean ====
section
/-! DEFINITION. The constants of this hardware (00_scope.md R6): both transition tables (30_encoding.md R63, R64), the curves,
the clamp range, and the built instance. -/

namespace Sys2Proof.Machine

/-- The half-step table, `N` = 6 (R63). -/
def halfTable : List Row :=
  [ ⟨0x03#8, 0x02#8, 0x01#8, 0x00#8⟩    -- 0 H_START
  , ⟨0x23#8, 0x00#8, 0x01#8, 0x00#8⟩    -- 1 H_CCW_BEGIN
  , ⟨0x13#8, 0x02#8, 0x00#8, 0x00#8⟩    -- 2 H_CW_BEGIN
  , ⟨0x03#8, 0x05#8, 0x04#8, 0x00#8⟩    -- 3 H_START_M
  , ⟨0x03#8, 0x03#8, 0x04#8, 0x10#8⟩    -- 4 H_CW_BEGIN_M
  , ⟨0x03#8, 0x05#8, 0x03#8, 0x20#8⟩ ]  -- 5 H_CCW_BEGIN_M

/-- The full-step table, `N` = 7 (R64). -/
def fullTable : List Row :=
  [ ⟨0x00#8, 0x02#8, 0x04#8, 0x00#8⟩    -- 0 F_START
  , ⟨0x03#8, 0x00#8, 0x01#8, 0x10#8⟩    -- 1 F_CW_FINAL
  , ⟨0x03#8, 0x02#8, 0x00#8, 0x00#8⟩    -- 2 F_CW_BEGIN
  , ⟨0x03#8, 0x02#8, 0x01#8, 0x00#8⟩    -- 3 F_CW_NEXT
  , ⟨0x06#8, 0x00#8, 0x04#8, 0x00#8⟩    -- 4 F_CCW_BEGIN
  , ⟨0x06#8, 0x05#8, 0x00#8, 0x20#8⟩    -- 5 F_CCW_FINAL
  , ⟨0x06#8, 0x05#8, 0x04#8, 0x00#8⟩ ]  -- 6 F_CCW_NEXT

/-- The table a mode is built with: switching modes swaps the whole table (R7, R92). -/
def tableOf : Mode → List Row
  | .half => halfTable
  | .full => fullTable

/-- `INC_P1` = (5, 10), `INC_P2` = (250, 1) (R29, R102). -/
def incCurve : Curve := ⟨⟨5, 10⟩, ⟨250, 1⟩⟩

/-- `DEC_P1` = (5, 50), `DEC_P2` = (250, 1) (R29, R102). -/
def decCurve : Curve := ⟨⟨5, 50⟩, ⟨250, 1⟩⟩

/-- The instance built in a mode, every other parameter at the value of R6. -/
def configOf (m : Mode) : Config where
  mode := m
  table := tableOf m
  inc := incCurve
  dec := decCurve
  clampLo := 1
  clampHi := 100
  ticksPerMs := 1000
  num := exactNum
  multFmt := binary32
  tsReset := 0#32
  vsEnReset := true
  multReset := 1

/-- This hardware: exactly one mode is compiled in, and it is `HALF` (R6, 92_eei_decisions.md D3). -/
def built : Config := configOf .half

/-- `TT[r][s]` (R9), `none` where there is no row `r`. -/
def tableEntry (c : Config) (r : Nat) (s : Sample) : Option Byte :=
  (c.table[r]?).map fun row => rowAt row s

/-- The table laid out as a flat array of bytes (20_memory.md R41). -/
def flatTable (c : Config) : List Byte := c.table.flatMap Row.entries

end Sys2Proof.Machine
end

