-- ==== Sys2Proof/Machine/State.lean ====
section
/-! DEFINITION. The state of the block (10_state.md R20), the two ends of its interface, the results of operations and the
reasons a step can stop. There is no memory (20_memory.md R40): the transition table is a constant (R53). -/

namespace Sys2Proof.Machine

/-- Why a step stops with a fault. -/
inductive Fault where
  /-- `STATE[3:0]` names a row the table does not have (10_state.md R35; 93_implementation_defined.md U6). Raised by `EDGE`.
  Safe: no run from reset gets there, and nothing is written. -/
  | rowOutOfRange
  deriving DecidableEq, Repr

/-- Why a step has no meaning. No operation of this hardware is refused in this sense: what the spec calls a refusal changes
no state and lets the block go on, and is a result (`Declined`, log entry 2). -/
inductive Refusal where
  /-- The instruction has no meaning yet. Raised by no arm. Safe. -/
  | notModelled (mnemonic : String)
  deriving DecidableEq, Repr

/-- Why the block refuses an operation (60_exceptions.md R150). A refusal changes no register and returns nothing. -/
inductive Declined where
  /-- op code `0b111` (30_encoding.md R71) -/
  | reservedOpCode
  /-- `INIT` while `ARMED` = 1 (70_reset_and_hazards.md R170) -/
  | secondInit
  /-- `SET_MULT` with bits that denote no number (41_accumulator.md R114) -/
  | notANumber
  deriving DecidableEq, Repr

/-- The result of an operation (00_scope.md R12). -/
inductive Result where
  /-- the operation has no result -/
  | nothing
  /-- the event code of an `EDGE` (R80) -/
  | event (e : Event)
  /-- the signed value a `DRAIN` returns (42_drain.md R130) -/
  | drained (v : Int)
  /-- the operation was refused: it returned nothing and changed no register (R150) -/
  | declined (why : Declined)
  deriving DecidableEq, Repr

/-- An operation issued to the block: as a command word on the bit-level interface, or as an abstract operation (R68), of which
the reserved code is none (R71). -/
inductive Command where
  | word (w : CmdWord)
  | op (o : Operation)
  deriving DecidableEq, Repr

/-- The registers of R20, and the two ends of the interface, which are the model's own (log entry 1). -/
structure State where
  /-- `STATE`, the table entry most recently looked up, whole (R21) -/
  stateReg : Byte
  /-- `LAST_TS` (R23) -/
  lastTs : Word
  /-- `COUNT`, two's complement (R24) -/
  count : Word
  /-- `VS_EN` (R27) -/
  vsEn : Bool
  /-- `MULT` (R28) -/
  mult : Rat
  /-- `ARMED` (R30) -/
  armed : Bool
  /-- the operations issued and not yet performed, in the one total order of 20_memory.md R47 -/
  pending : List Command
  /-- the results the block has yielded, oldest first -/
  results : List Result
  deriving DecidableEq, Repr

/-- The state after reset of an instance (R34, R171). Nothing is issued yet and nothing has been yielded. -/
def State.resetOf (c : Config) : State where
  stateReg := 0x00#8
  lastTs := c.tsReset
  count := 0#32
  vsEn := c.vsEnReset
  mult := c.multReset
  armed := false
  pending := []
  results := []

/-- The state after reset of this hardware (R34). -/
def State.reset : State := State.resetOf built

end Sys2Proof.Machine
end

