-- ==== Sys2Proof/Machine/Ops.lean ====
section
/-! DEFINITION. The named operations over registers (00_scope.md R9, 20_memory.md R44: each moves a whole register), and the
edge interrupt (60_exceptions.md R153 to R159), which is all the block has of exception entry and return. -/

namespace Sys2Proof.Machine

def setStateReg (s : State) (e : Byte) : State := { s with stateReg := e }

def setLastTs (s : State) (t : Word) : State := { s with lastTs := t }

def setCount (s : State) (v : Word) : State := { s with count := v }

def setVsEn (s : State) (en : Bool) : State := { s with vsEn := en }

def setMult (s : State) (m : Rat) : State := { s with mult := m }

def setArmed (s : State) (a : Bool) : State := { s with armed := a }

def setPending (s : State) (p : List Command) : State := { s with pending := p }

/-- The operation completes with the result `r`. -/
def yieldResult (s : State) (r : Result) : State := { s with results := s.results ++ [r] }

/-- `COUNT <- wrap_32(COUNT + x)` (41_accumulator.md R106, 42_drain.md R135). -/
def addCount (s : State) (x : Int) : State := setCount s (wrapWord (s.count.toInt + x))

/-- An operation that is not admitted changes no register and returns nothing (00_scope.md R11, 60_exceptions.md R150). -/
def decline (s : State) (why : Declined) : State := yieldResult s (.declined why)

/-- The edge interrupt: entering and leaving the handler save and restore nothing that is state of the block (R158, R159), so
taking it is running the handler. It is delivered only while `ARMED` = 1 (R154); before that the operation does not occur,
which is neither a fault nor a refusal: there is no result and no change (70_reset_and_hazards.md R173). -/
def takeEdgeInterrupt (s : State) (handler : State → Host.Outcome State Fault Refusal) : Host.Outcome State Fault Refusal :=
  if s.armed then handler s else .next s

end Sys2Proof.Machine
end

