-- ==== Sys2Proof/Machine/Flags.lean ====
section
/-! DEFINITION. The fields of `STATE` and of a table entry (10_state.md R21, R26; 30_encoding.md R61, R62). The block has no
condition codes: the flag-like state is `STATE.DIR`, `VS_EN` and `ARMED` (R26). -/

namespace Sys2Proof.Machine

/-- `next(e) = e[3:0]` (R62). -/
def entryNext (e : Byte) : Nat := (e.extractLsb' 0 4).toNat

/-- The high nibble of `EV_CW` = `0x10` (R61). -/
def cwNibble : BitVec 4 := 1#4

/-- The high nibble of `EV_CCW` = `0x20` (R61). -/
def ccwNibble : BitVec 4 := 2#4

/-- `event(e)`: the whole high nibble is compared, and any other value is no event (R62, R67, 90_conflicts.md C7). -/
def entryEvent (e : Byte) : Event :=
  if e.extractLsb' 4 4 = cwNibble then .cw
  else if e.extractLsb' 4 4 = ccwNibble then .ccw
  else .none

/-- The direction of a detent event, `none` for `EV_NONE` (R81). -/
def eventDirection : Event → Option Direction
  | .none => none
  | .cw => some .cw
  | .ccw => some .ccw

/-- `STATE.ROW` = `STATE[3:0]` (R21). -/
def rowOf (s : State) : Nat := entryNext s.stateReg

/-- `STATE.DIR`, the event code of the most recent lookup (R21). Nothing reads it. -/
def dirOf (s : State) : BitVec 2 := s.stateReg.extractLsb' 4 2

end Sys2Proof.Machine
end

