-- ==== Sys2Proof/Machine/Accumulator.lean ====
section
/-! DEFINITION. The speed-adaptive accumulator: `DETENT`, `SET_VS`, `SET_MULT` and the pseudo-operation `CONFIGURE`
(41_accumulator.md). A meaning whose name ends in With takes the build-time constants; the built instance's stands below it. -/

namespace Sys2Proof.Machine

/-- `dt_ticks = umod_32(now - LAST_TS)` (R101). -/
def dtTicks (s : State) (now : Word) : Nat := (now - s.lastTs).toNat

/-- The curve of a direction (R102). -/
def curveFor (c : Config) : Direction → Curve
  | .cw => c.inc
  | .ccw => c.dec

/-- R101 to R104: the interval in milliseconds, the raw step, scaled, clamped, then rounded. -/
def variableStep (c : Config) (dir : Direction) (ticks : Nat) (mult : Rat) : Int :=
  let dt := c.num.toMs ticks c.ticksPerMs
  let raw := c.num.interpolate (curveFor c dir) dt
  c.num.round (c.num.clamp (c.num.multiply raw mult) c.clampLo c.clampHi)

/-- `STEP(dir, now)` (R105). -/
def stepSize (c : Config) (s : State) (dir : Direction) (now : Word) : Int :=
  if s.vsEn then variableStep c dir (dtTicks s now) s.mult else 1

/-- A step with the sign of its direction (R106). -/
def signedBy : Direction → Int → Int
  | .cw, k => k
  | .ccw, k => -k

/-- `delta` (R100, R106). -/
def detentDelta (c : Config) (s : State) (dir : Direction) (now : Word) : Int := signedBy dir (stepSize c s dir now)

/-- The effect of `DETENT` on the registers, shared by `EDGE` (R100, R106, R107). -/
def applyDetent (c : Config) (dir : Direction) (now : Word) (s : State) : State :=
  setLastTs (addCount s (detentDelta c s dir now)) now

/-- `DETENT dir now` as an operation of its own (R100). -/
def execDetentWith (c : Config) (dir : Direction) (now : Word) (s : State) : Host.Outcome State Fault Refusal :=
  .next (yieldResult (applyDetent c dir now s) .nothing)

def execDetent (dir : Direction) (now : Word) (s : State) : Host.Outcome State Fault Refusal :=
  execDetentWith built dir now s

/-- `SET_VS en`: `VS_EN <- en` (R111). -/
def execSetVs (en : Bool) (s : State) : Host.Outcome State Fault Refusal :=
  .next (yieldResult (setVsEn s en) .nothing)

/-- `SET_MULT m`: `MULT <- m` (R112); an operand that is not a number is refused (R114). -/
def execSetMultWith (c : Config) (m : MultOperand) (s : State) : Host.Outcome State Fault Refusal :=
  match multOperandValue c m with
  | some q => .next (yieldResult (setMult s q) .nothing)
  | none => .next (decline s .notANumber)

def execSetMult (m : MultOperand) (s : State) : Host.Outcome State Fault Refusal := execSetMultWith built m s

/-- `CONFIGURE en m` (R74, R113): the two operations, in either order, the order being unfixed. -/
def configureOrders (en : Bool) (m : MultOperand) : List (List Instr) :=
  [[.setVs en, .setMult m], [.setMult m, .setVs en]]

end Sys2Proof.Machine
end

