-- ==== Sys2Proof/Machine/Decoder.lean ====
section
/-! DEFINITION. The decoder: `EDGE` (40_decoder.md). -/

namespace Sys2Proof.Machine

/-- `decode(r, s) = (TT[r][s][3:0], event(TT[r][s]))`, the pure state transition (R82); `none` where there is no row `r`. -/
def transition (c : Config) (r : Nat) (s : Sample) : Option (Nat × Event) :=
  (tableEntry c r s).map fun e => (entryNext e, entryEvent e)

/-- `if ev != EV_NONE then DETENT(ev, now)` (R81, R83). -/
def detentOnEvent (c : Config) (ev : Event) (now : Word) (s : State) : State :=
  match eventDirection ev with
  | some dir => applyDetent c dir now s
  | none => s

/-- The handler's work on an entry it has looked up: `STATE <- e`, the detent, the result (R81). -/
def edgeWithEntry (c : Config) (e : Byte) (now : Word) (s : State) : State :=
  yieldResult (detentOnEvent c (entryEvent e) now (setStateReg s e)) (.event (entryEvent e))

/-- The handler (R81). A row the table does not have is a fault (93_implementation_defined.md U6). -/
def edgeHandler (c : Config) (sample : Sample) (now : Word) (s : State) : Host.Outcome State Fault Refusal :=
  match tableEntry c (rowOf s) sample with
  | some e => .next (edgeWithEntry c e now s)
  | none => .fault .rowOutOfRange

/-- `EDGE sample now` (R80, R81). -/
def execEdgeWith (c : Config) (sample : Sample) (now : Word) (s : State) : Host.Outcome State Fault Refusal :=
  takeEdgeInterrupt s (edgeHandler c sample now)

def execEdge (sample : Sample) (now : Word) (s : State) : Host.Outcome State Fault Refusal :=
  execEdgeWith built sample now s

end Sys2Proof.Machine
end

