-- ==== Sys2Proof/Machine/Drain.lean ====
section
/-! DEFINITION. The atomic counter drain: `DRAIN` and `INJECT` (42_drain.md). -/

namespace Sys2Proof.Machine

/-- `DRAIN`: `result COUNT; COUNT <- 0`, in one step (R130, R131). -/
def execDrain (s : State) : Host.Outcome State Fault Refusal :=
  .next (yieldResult (setCount s 0#32) (.drained s.count.toInt))

/-- `INJECT v`: `COUNT <- wrap_32(COUNT + v)` (R135). -/
def execInject (v : Word) (s : State) : Host.Outcome State Fault Refusal :=
  .next (yieldResult (addCount s (injectValue v)) .nothing)

end Sys2Proof.Machine
end

