-- ==== Sys2Proof/Machine/System.lean ====
section
/-! DEFINITION. `INIT` (70_reset_and_hazards.md R170), the reserved op code (30_encoding.md R71), and which context issues
which operation (60_exceptions.md R161). -/

namespace Sys2Proof.Machine

/-- `INIT`: `ARMED <- 1`, once; a second one is refused (R170). -/
def execInit (s : State) : Host.Outcome State Fault Refusal :=
  if s.armed then .next (decline s .secondInit) else .next (yieldResult (setArmed s true) .nothing)

/-- A command word with op code `0b111` is refused: it changes no state and returns nothing (R71). -/
def execReserved (s : State) : Host.Outcome State Fault Refusal :=
  .next (decline s .reservedOpCode)

/-- The context that issues an operation (R33, R161): `DETENT` runs inside `EDGE`; nobody issues the reserved code (R69).
Nothing enforces it: it is a contract (R46, R161). -/
def issuer : Instr → Option Context
  | .edge _ _ => some .irq
  | .detent _ _ => some .irq
  | .drain => some .poll
  | .setVs _ => some .poll
  | .setMult _ => some .poll
  | .inject _ => some .poll
  | .init => some .poll
  | .reserved => none

end Sys2Proof.Machine
end

