-- ==== Sys2Proof/Machine/Dispatch.lean ====
section
/-! DEFINITION. One arm for each operation of the block (30_encoding.md R69). -/

namespace Sys2Proof.Machine

def exec (i : Instr) (s : State) : Host.Outcome State Fault Refusal :=
  match i with
  -- the decoder
  | .edge sample now => Sys2Proof.Machine.execEdge sample now s
  -- the accumulator
  | .detent dir now => Sys2Proof.Machine.execDetent dir now s
  | .setVs en => Sys2Proof.Machine.execSetVs en s
  | .setMult m => Sys2Proof.Machine.execSetMult m s
  -- the drain
  | .drain => Sys2Proof.Machine.execDrain s
  | .inject v => Sys2Proof.Machine.execInject v s
  -- system
  | .init => Sys2Proof.Machine.execInit s
  | .reserved => Sys2Proof.Machine.execReserved s

end Sys2Proof.Machine
end

