-- ==== Sys2Proof/Machine/Trace.lean ====
section
/-! DEFINITION. The machine of any instance, and traces (00_scope.md R12): a trace is a finite sequence of operations, in the
one total order of 20_memory.md R47, each applied to the state its predecessor left. -/

namespace Sys2Proof.Machine

/-- The instruction of an operation: the row of the table with its mnemonic (R69). No operation is the reserved code (R71). -/
def operationInstr : Operation → Instr
  | .edge sample now => .edge sample now
  | .drain => .drain
  | .setVs en => .setVs en
  | .setMult m => .setMult m
  | .inject v => .inject v
  | .init => .init
  | .detent dir now => .detent dir now

/-- The instruction an issued command is. -/
def commandInstr : Command → Instr
  | .word w => decode w
  | .op o => operationInstr o

/-- One operation, on an instance built with the constants `c`. -/
def execWith (c : Config) (i : Instr) (s : State) : Host.Outcome State Fault Refusal :=
  match i with
  | .edge sample now => execEdgeWith c sample now s
  | .detent dir now => execDetentWith c dir now s
  | .setVs en => execSetVs en s
  | .setMult m => execSetMultWith c m s
  | .drain => execDrain s
  | .inject v => execInject v s
  | .init => execInit s
  | .reserved => execReserved s

/-- A trace run from a state, stopping at the first fault or refusal. Of a trace given as command words, a refused word is an
element too. -/
def runTrace (c : Config) : List Instr → State → Host.Outcome State Fault Refusal
  | [], s => .next s
  | i :: is, s =>
    match execWith c i s with
    | .next t => runTrace c is t
    | .fault r => .fault r
    | .refused r => .refused r

/-- Perform the next issued operation by `ex`. Where none is issued the block stays as it is: it has no terminal state and
runs forever (R25), and there is nothing in flight between operations (R174). -/
def performNext (ex : Instr → State → Host.Outcome State Fault Refusal) (s : State) : Host.Outcome State Fault Refusal :=
  match s.pending with
  | [] => .next s
  | cmd :: rest => ex (commandInstr cmd) (setPending s rest)

end Sys2Proof.Machine
end

