-- ==== Sys2Proof/Machine/Step.lean ====
section
/-! DEFINITION. One step of the block: the next issued operation, performed whole (00_scope.md R12, 20_memory.md R48). -/

namespace Sys2Proof.Machine

/-- One step of this hardware. -/
def step (s : State) : Host.Outcome State Fault Refusal := performNext exec s

/-- One step of an instance built with the constants `c`. -/
def stepWith (c : Config) (s : State) : Host.Outcome State Fault Refusal := performNext (execWith c) s

/-- `s` with a command word issued as the very next operation. -/
def State.withFetchWord (s : State) (_nbits w : Nat) : State :=
  setPending s (.word (BitVec.ofNat 37 w) :: s.pending)

end Sys2Proof.Machine
end

