-- ==== Sys2Proof/Safety.lean ====
section
/-! DEFINITION. The terms claims are stated in: the two's-complement wrap of an integer (00_scope.md R10), the invariant of
reachable states (10_state.md R35), and the accounts of the conservation law (42_drain.md R133). -/

namespace Sys2Proof.Machine

/-- `umod_W(x)` (R10). -/
def umodInt (w : Nat) (x : Int) : Int := x % 2 ^ w

/-- `to_signed_W(u)` (R10). -/
def toSignedInt (w : Nat) (u : Int) : Int := if u < 2 ^ (w - 1) then u else u - 2 ^ w

/-- `wrap_W(x) = to_signed_W(umod_W(x))` (R10). -/
def wrapInt (w : Nat) (x : Int) : Int := toSignedInt w (umodInt w x)

/-- The invariant of R35: the row exists, `STATE[7:6]` = 0, `STATE[5:4]` is not `0b11`. The ranges of `LAST_TS` and `COUNT`
hold by their types. -/
abbrev RegInv (c : Config) (s : State) : Prop :=
  rowOf s < c.mode.rows ∧ s.stateReg.extractLsb' 6 2 = 0#2 ∧ dirOf s ≠ 3#2

/-- The six registers of R20 hold the same values. -/
abbrev SameRegisters (s t : State) : Prop :=
  t.stateReg = s.stateReg ∧ t.lastTs = s.lastTs ∧ t.count = s.count ∧ t.vsEn = s.vsEn ∧ t.mult = s.mult ∧
    t.armed = s.armed

/-- The operation is an `EDGE`. -/
def isEdge : Instr → Bool
  | .edge _ _ => true
  | .drain => false
  | .setVs _ => false
  | .setMult _ => false
  | .inject _ => false
  | .init => false
  | .detent _ _ => false
  | .reserved => false

/-- The operation is a `DETENT` issued on the interface of the accumulator taken alone (R69). -/
def isDetent : Instr → Bool
  | .detent _ _ => true
  | .edge _ _ => false
  | .drain => false
  | .setVs _ => false
  | .setMult _ => false
  | .inject _ => false
  | .init => false
  | .reserved => false

/-- How often an event was emitted. -/
def eventCount (e : Event) (rs : List Result) : Nat := rs.count (.event e)

/-- The operation, performed from `s` to `t`, ran a detent of direction `dir` at time `now`: an `EDGE` that emitted it, which in
the assembled block is the only way (R81, R100), or a `DETENT` issued on the accumulator taken alone (R69). -/
def RanDetent (i : Instr) (s t : State) (dir : Direction) (now : Word) : Prop :=
  i = .detent dir now ∨
    ∃ sample ev, i = .edge sample now ∧ eventDirection ev = some dir ∧ t.results = s.results ++ [.event ev]

/-- No operation of a trace that added the results `new` ran a detent: none is a `DETENT`, and no `EDGE` of it emitted. -/
abbrev RanNoDetent (is : List Instr) (new : List Result) : Prop :=
  (∀ i ∈ is, isDetent i = false) ∧ eventCount .cw new = 0 ∧ eventCount .ccw new = 0

/-- The operation adds to the counter or empties it: `EDGE`, `DETENT`, `DRAIN` or `INJECT`. -/
def isCounting : Instr → Bool
  | .edge _ _ => true
  | .detent _ _ => true
  | .drain => true
  | .inject _ => true
  | .setVs _ => false
  | .setMult _ => false
  | .init => false
  | .reserved => false

/-- The bits of a command word its operation uses, the others being ignored on input and written as 0 (30_encoding.md R68). -/
def usedBits (w : CmdWord) : CmdWord :=
  match (opCode w).toNat with
  | 0 => BitVec.allOnes 37
  | 1 => 0x7#37
  | 2 => 0xF#37
  | 3 => 0x7FFFFFFFF#37
  | 4 => 0x7FFFFFFFF#37
  | 5 => 0x7#37
  | 6 => 0xFFFFFFFFF#37
  | _ => 0x7#37

/-- What the consumer has received in all: the sum of the results of the `DRAIN`s (R133, R174). -/
def drainedSum : List Result → Int
  | [] => 0
  | .drained v :: rs => v + drainedSum rs
  | _ :: rs => drainedSum rs

/-- The `delta` of the `DETENT` an operation contains, 0 where it contains none (R133). -/
def turnOf (c : Config) (i : Instr) (s : State) : Int :=
  match i with
  | .edge sample now =>
    if s.armed then
      match (tableEntry c (rowOf s) sample).bind fun e => eventDirection (entryEvent e) with
      | some dir => detentDelta c s dir now
      | none => 0
    else 0
  | .detent dir now => detentDelta c s dir now
  | .drain => 0
  | .setVs _ => 0
  | .setMult _ => 0
  | .inject _ => 0
  | .init => 0
  | .reserved => 0

/-- The operand of an `INJECT`, 0 for any other operation (R133). -/
def injectOf : Instr → Int
  | .inject v => injectValue v
  | .edge _ _ => 0
  | .drain => 0
  | .setVs _ => 0
  | .setMult _ => 0
  | .init => 0
  | .detent _ _ => 0
  | .reserved => 0

/-- `S`: the sum of the `delta`s of a trace run from a state (R133). -/
def turnSum (c : Config) : List Instr → State → Int
  | [], _ => 0
  | i :: is, s =>
    turnOf c i s +
      match execWith c i s with
      | .next t => turnSum c is t
      | .fault _ => 0
      | .refused _ => 0

/-- `J`: the sum of the operands of the `INJECT`s of a trace (R133). -/
def injectSum : List Instr → Int
  | [] => 0
  | i :: is => injectOf i + injectSum is

/-- No addition of the trace wraps: each exact sum is in the range of `COUNT` (R106, R133). -/
def NoWrap (c : Config) : List Instr → State → Prop
  | [], _ => True
  | i :: is, s =>
    (-2 ^ 31 ≤ s.count.toInt + (turnOf c i s + injectOf i) ∧ s.count.toInt + (turnOf c i s + injectOf i) < 2 ^ 31) ∧
      match execWith c i s with
      | .next t => NoWrap c is t
      | .fault _ => True
      | .refused _ => True

end Sys2Proof.Machine
end

