-- ==== Sys2Proof/Certificates/Slice0/Obligations.lean ====
section
/-! DEFINITION. The statements for the provers. A statement about `exec` or `step` is about this hardware, the instance
`built` (half-step mode); one about `execWith c` or `runTrace c` is about the instance built with the constants `c`. The
result statements give the whole next state, so each is its own frame. -/

open Sys2Proof Sys2Proof.Machine

/-! ### The command word -/

/-- Words of the spec's own list (95_test_vectors.md section 4) decode to the operations printed beside them. The command word
is the spec's own choice (92_eei_decisions.md D2). -/
def Obligations.ListedWordsDecodeAsPrinted : Prop :=
  decode 0x0000007D08#37 = .edge 1#2 1000#32 ∧ decode 0x1FFFFFFFF8#37 = .edge 3#2 0xFFFFFFFF#32 ∧
    decode 0x0000000001#37 = .drain ∧ decode 0x000000000A#37 = .setVs true ∧
    decode 0x0201000003#37 = .setMult (.word 0x40200000#32) ∧ decode 0x07FFFFFFB4#37 = .inject (BitVec.ofInt 32 (-10)) ∧
    decode 0x0000000005#37 = .init ∧ decode 0x00011344C6#37 = .detent .cw 1127500#32 ∧
    decode 0x000001388E#37 = .detent .ccw 5000#32 ∧ decode 0x0000000007#37 = .reserved

/-- Every instruction that has a command word is what its command word decodes to, at every operand (30_encoding.md section 4,
D2). -/
def Obligations.DecodeOfEncodeIsTheInstruction : Prop :=
  ∀ i : Instr, i.wf = true → ∃ w, encode i = some w ∧ decode w = i

/-- Every word decodes to an instruction that has a word, and encoding it again clears exactly the bits its operation does not
use (30_encoding.md section 4: unused bits are ignored on input and written as 0; D2). -/
def Obligations.EncodeOfDecodeClearsTheUnusedBits : Prop :=
  ∀ w : CmdWord, (decode w).wf = true ∧ encode (decode w) = some (w &&& usedBits w)

/-- The number a `SET_MULT` word denotes under `MULT_FMT` (30_encoding.md section 4; D2, D9, and the format itself is general
knowledge, GK10): normal and subnormal words, both zeros, and the words that denote none. -/
def Obligations.MultiplierWordsDenoteBinary32Values : Prop :=
  ∀ b : Word,
    let sign : Rat := if b.getLsbD 31 then -1 else 1
    let ex := (b.extractLsb' 23 8).toNat
    let frac : Rat := ((b.extractLsb' 0 23).toNat : Rat)
    (ex = 255 → binary32 b = none) ∧
      (ex = 0 → binary32 b = some (sign * (frac / 2 ^ 149))) ∧
      (1 ≤ ex → ex ≤ 126 → binary32 b = some (sign * ((1 + frac / 2 ^ 23) / 2 ^ (127 - ex)))) ∧
      (127 ≤ ex → ex ≤ 254 → binary32 b = some (sign * ((1 + frac / 2 ^ 23) * 2 ^ (ex - 127))))

/-! ### Steps -/

/-- A step performs the next issued operation, a command word being the operation it decodes to and an abstract operation the
instruction with its mnemonic, and takes it off the list; with none issued the block stays as it is (the model's choice, log
entry 4). -/
def Obligations.StepPerformsTheNextCommand : Prop :=
  ∀ (s : State) (rest : List Command),
    (∀ w, s.pending = .word w :: rest → step s = exec (decode w) (setPending s rest)) ∧
      (∀ o, s.pending = .op o :: rest → step s = exec (operationInstr o) (setPending s rest)) ∧
      (s.pending = [] → step s = .next s)

/-- A command word issued as the very next operation is what the next step runs, as the decoder reads it. -/
def Obligations.IssuedWordIsRunNext : Prop :=
  ∀ (s : State) (nbits w : Nat) (i : Instr), decodeTableWord nbits w = some i →
    step (s.withFetchWord nbits w) = exec i s

/-- The steps of the machine on issued commands, words or abstract operations, are the trace of the instructions they are: each
is applied to the state its predecessor left, in the order issued (00_scope.md section 4, 20_memory.md section 3; D1). -/
def Obligations.RunOfTheMachineIsTheTrace : Prop :=
  ∀ s : State, core.run s.pending.length s = runTrace built (s.pending.map commandInstr) (setPending s [])

/-- The invariant holds after reset, in both modes (10_state.md section 9). -/
def Obligations.ResetMeetsTheInvariant : Prop :=
  ∀ m : Mode, RegInv (configOf m) (State.resetOf (configOf m))

/-- The register values after reset (10_state.md section 9). `STATE` = 0x00 is the source's; the others are the spec's own
(D11, D19), three of them through named parameters. -/
def Obligations.ResetHoldsTheListedValues : Prop :=
  (State.reset.stateReg = 0x00#8 ∧ State.reset.lastTs = 0#32 ∧ State.reset.count = 0#32 ∧ State.reset.vsEn = true ∧
      State.reset.mult = 1 ∧ State.reset.armed = false) ∧
    ∀ c : Config, (State.resetOf c).stateReg = 0x00#8 ∧ (State.resetOf c).lastTs = c.tsReset ∧
      (State.resetOf c).count = 0#32 ∧ (State.resetOf c).vsEn = c.vsEnReset ∧ (State.resetOf c).mult = c.multReset ∧
      (State.resetOf c).armed = false

/-- Every step keeps the invariant, for every table the spec admits (30_encoding.md section 2) and so for both modes: the row
exists, `STATE[7:6]` is 0 and `STATE[5:4]` is never `0b11` (10_state.md section 9). -/
def Obligations.EveryStepKeepsTheInvariant : Prop :=
  (∀ (c : Config) (s t : State), c.tableWf = true → c.tableTidy = true → RegInv c s → stepWith c s = .next t → RegInv c t) ∧
    ∀ s t : State, RegInv built s → step s = .next t → RegInv built t

/-- In a state that meets the invariant no operation can fail: the step answers a next state (60_exceptions.md section 1,
40_decoder.md section 2). For this hardware, and for every table the spec admits. That this next state is also the answer where
the spec has no completed operation is the model's choice: a refused operation (log entry 2), an `EDGE` before `INIT`, which
does not occur (log entry 5), a step with nothing issued (log entry 4). -/
def Obligations.NoStepFailsUnderTheInvariant : Prop :=
  (∀ s : State, RegInv built s → ∃ t, step s = .next t) ∧
    ∀ (c : Config) (s : State), c.tableWf = true → rowOf s < c.mode.rows → ∃ t, stepWith c s = .next t

/-! ### The decoder -/

/-- `EDGE` (40_decoder.md section 1): the row is `STATE[3:0]`, the entry `TT[r][sample]` is stored whole, the event is read from
its high nibble, `DETENT` runs when there is one, and the event is the result. On this hardware the entry exists for every row
below 6; then come the rule's example, and the same for every instance. `ARMED` is the spec's decision D19; that a step with
`ARMED` = 0, where the `EDGE` does not occur, answers the same state is the model's choice, log entry 5. -/
def Obligations.EdgeLooksUpStoresAndEmits : Prop :=
  let after : Config → State → Word → Byte → State := fun c s now e =>
    if e.extractLsb' 4 4 = 0x1#4 then yieldResult (applyDetent c .cw now (setStateReg s e)) (.event .cw)
    else if e.extractLsb' 4 4 = 0x2#4 then yieldResult (applyDetent c .ccw now (setStateReg s e)) (.event .ccw)
    else yieldResult (setStateReg s e) (.event .none)
  ∀ (s : State) (sample : Sample) (now : Word),
    (s.armed = false → exec (.edge sample now) s = .next s) ∧
      (s.armed = true → (s.stateReg.extractLsb' 0 4).toNat < 6 →
        ∃ e, tableEntry built (s.stateReg.extractLsb' 0 4).toNat sample = some e ∧
          exec (.edge sample now) s = .next (after built s now e)) ∧
      (s.armed = true → s.stateReg = 0x02#8 →
        exec (.edge 0#2 now) s = .next (yieldResult (applyDetent built .cw now (setStateReg s 0x13#8)) (.event .cw))) ∧
      ∀ c, (s.armed = false → execWith c (.edge sample now) s = .next s) ∧
        ∀ e, s.armed = true → tableEntry c (s.stateReg.extractLsb' 0 4).toNat sample = some e →
          execWith c (.edge sample now) s = .next (after c s now e)

/-- An `EDGE` whose row the table does not have is a fault (10_state.md section 9; the treatment is
93_implementation_defined.md U6). No state a run reaches is such a state. -/
def Obligations.EdgeOutsideTheTableFaults : Prop :=
  ∀ (s : State) (sample : Sample) (now : Word), s.armed = true → 6 ≤ rowOf s →
    exec (.edge sample now) s = .fault .rowOutOfRange

/-- R82: what `EDGE` stores in `STATE` and emits depends on `STATE[3:0]` and the sample alone. -/
def Obligations.DecoderReadsOnlyRowAndSample : Prop :=
  ∀ (c : Config) (s1 s2 t1 t2 : State) (sample : Sample) (now1 now2 : Word), s1.armed = true → s2.armed = true →
    s1.stateReg.extractLsb' 0 4 = s2.stateReg.extractLsb' 0 4 →
    execWith c (.edge sample now1) s1 = .next t1 → execWith c (.edge sample now2) s2 = .next t2 →
      t1.stateReg = t2.stateReg ∧
        ∃ ev, t1.results = s1.results ++ [.event ev] ∧ t2.results = s2.results ++ [.event ev] ∧
          transition c (rowOf s1) sample = some (rowOf t1, ev)

/-- The sample of two pin levels is `2*B + A`, read unsigned, and an edge on them is `EDGE` on that sample (30_encoding.md
sections 1 and 5; that 1 is the high level is the spec's decision D25). -/
def Obligations.SampleOfPinsIsTwoBPlusA : Prop :=
  ∀ (pinA pinB : Bool), (sampleOfPins pinA pinB).toNat = 2 * pinB.toNat + pinA.toNat ∧
    ∀ (now : Word) (s : State), exec (onEdge pinA pinB now) s = execEdge (BitVec.ofNat 2 (2 * pinB.toNat + pinA.toNat)) now s

/-- R66 of both tables: `N` rows, an entry for every row below `N` and every sample, none beyond, low nibbles below `N`, high
nibbles `0x0` to `0x2`, and every row is reached from row 0 by some samples. -/
def Obligations.BothTablesAreTotalInBoundsAndReachable : Prop :=
  ∀ m : Mode, (configOf m).table.length = m.rows ∧
    (∀ r s, r < m.rows → ∃ e, tableEntry (configOf m) r s = some e ∧ entryNext e < m.rows ∧ (e.extractLsb' 4 4).toNat < 3) ∧
    (∀ r s, m.rows ≤ r → tableEntry (configOf m) r s = none) ∧
    ∀ r, r < m.rows → ∃ (samples : List Sample) (t : State),
      runTrace (configOf m) (.init :: samples.map fun x => .edge x 0#32) (State.resetOf (configOf m)) = .next t ∧ rowOf t = r

/-- Laid out as a flat array of bytes, the entry of row `r`, column `s` is at offset `4*r + s` (20_memory.md section 1, derived
there). -/
def Obligations.FlatTableHoldsTheEntryAtFourRowsPlusColumn : Prop :=
  ∀ (c : Config) (r : Nat) (s : Sample), r < c.table.length → (flatTable c)[4 * r + s.toNat]? = tableEntry c r s

/-- On which samples a row is entered (40_decoder.md section 2, derived there by enumeration). -/
def Obligations.RowsAreEnteredOnFixedSamples : Prop :=
  ∀ (m : Mode) (s t : State) (sample : Sample) (now : Word), s.armed = true → rowOf s < m.rows →
    execWith (configOf m) (.edge sample now) s = .next t →
      match m with
      | .half => (rowOf t = 0 → sample ≠ 0#2) ∧ (rowOf t = 1 → sample = 2#2) ∧ (rowOf t = 2 → sample = 1#2) ∧
          (rowOf t = 3 → sample ≠ 3#2) ∧ (rowOf t = 4 → sample = 2#2) ∧ (rowOf t = 5 → sample = 1#2) ∧ rowOf t < 6
      | .full => (rowOf t = 1 → sample = 2#2) ∧ (rowOf t = 2 → sample = 1#2) ∧ (rowOf t = 3 → sample = 0#2) ∧
          (rowOf t = 4 → sample = 2#2) ∧ (rowOf t = 5 → sample = 1#2) ∧ (rowOf t = 6 → sample = 0#2) ∧ rowOf t < 7

/-- In both modes the sample 3 leads to row 0 from every row (40_decoder.md section 3, derived there). -/
def Obligations.SampleThreeReturnsToRest : Prop :=
  ∀ (m : Mode) (s : State) (now : Word), s.armed = true → rowOf s < m.rows →
    ∃ t, execWith (configOf m) (.edge 3#2 now) s = .next t ∧ rowOf t = 0

/-- A repeated sample never emits and keeps the row, but for the six cases of 40_decoder.md section 2 (derived there). Between
the two `EDGE`s any other operations may stand. -/
def Obligations.RepeatedSampleKeepsTheRowButForSixCases : Prop :=
  ∀ (m : Mode) (s u t : State) (p : Sample) (now1 now2 : Word) (mid : List Instr), s.armed = true → rowOf s < m.rows →
    (∀ i ∈ mid, isEdge i = false) → runTrace (configOf m) (.edge p now1 :: mid) s = .next u →
    execWith (configOf m) (.edge p now2) u = .next t →
      t.results = u.results ++ [.event .none] ∧
        rowOf t =
          match m, rowOf u, p.toNat with
          | .half, 0, 1 => 2
          | .half, 0, 2 => 1
          | .half, 3, 1 => 5
          | .half, 3, 2 => 4
          | .full, 0, 1 => 2
          | .full, 0, 2 => 4
          | _, r, _ => r

/-- The single-channel law (40_decoder.md section 2, derived there): an `EDGE` emits only if its sample differs in exactly one
bit from the sample of the `EDGE` before it, whatever other operations stand between; and an `EDGE` in row 0 emits nothing. So
an invalid double transition never changes the counter or the timestamp. -/
def Obligations.OnlyASingleChannelChangeEmits : Prop :=
  ∀ (m : Mode) (s u t : State) (p q : Sample) (now1 now2 : Word) (mid : List Instr), s.armed = true → rowOf s < m.rows →
    (∀ i ∈ mid, isEdge i = false) → runTrace (configOf m) (.edge p now1 :: mid) s = .next u →
    execWith (configOf m) (.edge q now2) u = .next t →
      (q = p ∨ q = p ^^^ 3#2 ∨ rowOf u = 0 →
        t.results = u.results ++ [.event .none] ∧ t.count = u.count ∧ t.lastTs = u.lastTs) ∧
      ∀ r, rowOf s = 0 → execWith (configOf m) (.edge p now1) s = .next r →
        r.results = s.results ++ [.event .none] ∧ r.count = s.count ∧ r.lastTs = s.lastTs

/-- The rows and events of one ideal turn from row 0 (40_decoder.md section 2, derived there), at any times: two events a
turn in half-step mode, one in full-step mode. -/
def Obligations.IdealTurnsGiveTheListedEvents : Prop :=
  ∀ (m : Mode) (s : State) (a b c d : Word), s.armed = true → rowOf s = 0 →
    let turn (w x y z : Sample) := runTrace (configOf m) [.edge w a, .edge x b, .edge y c, .edge z d] s
    (∃ t, turn 1#2 0#2 2#2 3#2 = .next t ∧ rowOf t = 0 ∧
      t.results = s.results ++ (match m with
        | .half => [.event .none, .event .cw, .event .none, .event .cw]
        | .full => [.event .none, .event .none, .event .none, .event .cw])) ∧
    ∃ t, turn 2#2 0#2 1#2 3#2 = .next t ∧ rowOf t = 0 ∧
      t.results = s.results ++ (match m with
        | .half => [.event .none, .event .ccw, .event .none, .event .ccw]
        | .full => [.event .none, .event .none, .event .none, .event .ccw])

/-- `STATE[7:4]` is not observable (10_state.md section 2): two states that differ there alone give the same results along
every trace, and the same registers but for `STATE[7:4]`. -/
def Obligations.DirectionBitsAreNotObservable : Prop :=
  ∀ (c : Config) (is : List Instr) (s1 s2 : State), rowOf s1 = rowOf s2 →
    s2 = { s1 with stateReg := s2.stateReg } →
      (∀ t1, runTrace c is s1 = .next t1 →
        ∃ t2, runTrace c is s2 = .next t2 ∧ rowOf t2 = rowOf t1 ∧ t2 = { t1 with stateReg := t2.stateReg }) ∧
      ∀ r, runTrace c is s1 = .fault r → runTrace c is s2 = .fault r

/-- R92: the modes differ only in the table. The two instances have every other constant in common; every operation, `EDGE`
among them, is one rule over the table, in which the mode itself has no part, on any instance; where the two tables hold the
same entry for the row and the sample, `EDGE` is the same in both modes; and every other operation is the same in both
modes. -/
def Obligations.ModesDifferOnlyInTheTable : Prop :=
  (∀ m, configOf m = { configOf .half with mode := m, table := tableOf m }) ∧
    (∀ (c : Config) (m : Mode) (i : Instr) (s : State), execWith { c with mode := m } i s = execWith c i s) ∧
    (∀ (m : Mode) (i : Instr) (s : State), execWith { configOf .half with table := tableOf m } i s = execWith (configOf m) i s) ∧
    (∀ (c d : Config) (sample : Sample) (now : Word) (s : State), d = { c with mode := d.mode, table := d.table } →
      tableEntry c (rowOf s) sample = tableEntry d (rowOf s) sample →
        execWith c (.edge sample now) s = execWith d (.edge sample now) s) ∧
    ∀ (i : Instr) (s : State), isEdge i = false → execWith (configOf .half) i s = execWith (configOf .full) i s

/-! ### The accumulator -/

/-- `DETENT` adds the signed step to `COUNT`, wrapping into 32 bits (the wrap is the spec's decision D7), records `now` in
`LAST_TS` and changes nothing else (41_accumulator.md section 1). That a `DETENT` issued on this hardware runs at all, and
whether or not `ARMED` is set, is the model's choice, log entry 8: the spec puts it on the interface of the accumulator taken
alone. -/
def Obligations.DetentAddsTheSignedStepAndRecordsTheTime : Prop :=
  ∀ (s : State) (dir : Direction) (now : Word),
    ∃ t, exec (.detent dir now) s = .next t ∧
      t = { s with lastTs := now, count := t.count, results := s.results ++ [.nothing] } ∧
      t.count.toInt = wrapInt 32
        (s.count.toInt + match dir with
          | .cw => stepSize built s .cw now
          | .ccw => -stepSize built s .ccw now)

/-- R107: `LAST_TS` becomes `now` on every detent, for both directions and both values of `VS_EN`, and on nothing else. -/
def Obligations.LastTsIsWrittenByDetentsOnly : Prop :=
  ∀ (c : Config) (i : Instr) (s t : State), execWith c i s = .next t →
    match i with
    | .detent _ now => t.lastTs = now ∧ ∀ later, dtTicks t later = (later - now).toNat
    | .edge _ now =>
      t.lastTs = if t.results = s.results ++ [.event .cw] ∨ t.results = s.results ++ [.event .ccw] then now else s.lastTs
    | _ => t.lastTs = s.lastTs

/-- With `VS_EN` = 0 a detent adds 1 or subtracts 1, whatever `LAST_TS`, `now` and `MULT` are; with `VS_EN` = 1 the step is that
of the speed computation on the interval and `MULT` (41_accumulator.md section 1). The wrap of `COUNT` is the spec's decision
D7; that an issued `DETENT` runs in every state is the model's choice, log entry 8. -/
def Obligations.StepIsOneWhenVariableSpeedIsOff : Prop :=
  ∀ (c : Config) (s : State) (dir : Direction) (now : Word),
    (s.vsEn = false → stepSize c s dir now = 1) ∧
      (s.vsEn = true → stepSize c s dir now = variableStep c dir (dtTicks s now) s.mult) ∧
      (s.vsEn = false → ∃ t, execWith c (.detent dir now) s = .next t ∧
        t.count = match dir with
          | .cw => s.count + 1#32
          | .ccw => s.count - 1#32)

/-- The interval (41_accumulator.md sections 1 and 4): the difference modulo 2^32, never negative; an elapsed time of `n` ticks
reads as `n` modulo 2^32, and a time that went back reads as a very long interval. The width is the spec's decision D6, the
reading of backward time and of long intervals D22. -/
def Obligations.IntervalIsTheModularDifference : Prop :=
  ∀ (s : State) (now : Word),
    (dtTicks s now : Int) = umodInt 32 ((now.toNat : Int) - s.lastTs.toNat) ∧
      (∀ n : Nat, now = s.lastTs + BitVec.ofNat 32 n → dtTicks s now = n % 2 ^ 32) ∧
      (now.toNat < s.lastTs.toNat → dtTicks s now = 2 ^ 32 - (s.lastTs.toNat - now.toNat))

/-- R102 and R103: the curve of each direction, and the raw step on it: flat up to and including the first threshold and from
the second on, linear between, never rising, and continuous at both thresholds. -/
def Obligations.RawStepIsTheTwoPointInterpolation : Prop :=
  curveFor built .cw = ⟨⟨5, 10⟩, ⟨250, 1⟩⟩ ∧ curveFor built .ccw = ⟨⟨5, 50⟩, ⟨250, 1⟩⟩ ∧
    (∀ (k : Curve) (dt : Rat), k.p1.x < k.p2.x →
      (dt ≤ k.p1.x → interpolateQ k dt = k.p1.y) ∧ (k.p2.x ≤ dt → interpolateQ k dt = k.p2.y) ∧
        (k.p1.x < dt → dt < k.p2.x →
          interpolateQ k dt = k.p1.y + (dt - k.p1.x) * (k.p2.y - k.p1.y) / (k.p2.x - k.p1.x))) ∧
    (∀ dt : Rat, 5 ≤ dt → dt ≤ 250 → interpolateQ (curveFor built .cw) dt = 10 - 9 * (dt - 5) / 245 ∧
      interpolateQ (curveFor built .ccw) dt = 50 - (dt - 5) / 5) ∧
    ∀ (dir : Direction) (a b : Rat), a ≤ b → interpolateQ (curveFor built dir) b ≤ interpolateQ (curveFor built dir) a

/-- The step of this hardware, written out from the interval in ticks (41_accumulator.md section 1): exact milliseconds (D8),
the curve, the multiplier, the clamp to [1, 100] before the rounding, and the rounding to the nearest integer with ties upward
(D10), all exact (D9). -/
def Obligations.StepIsTheRoundedClampedScaledCurve : Prop :=
  ∀ (m : Mode) (dir : Direction) (ticks : Nat) (mult : Rat),
    let scaled := interpolateQ (curveFor built dir) ((ticks : Rat) / 1000) * mult
    let clamped := if scaled ≤ 1 then 1 else if 100 ≤ scaled then 100 else scaled
    ((variableStep (configOf m) dir ticks mult : Int) : Rat) - 1 / 2 ≤ clamped ∧
      clamped < ((variableStep (configOf m) dir ticks mult : Int) : Rat) + 1 / 2

/-- In every state the step is from 1 to 100, so a detent always changes the counter (41_accumulator.md section 2, derived
there). The wrap of `COUNT` is D7, and that an issued `DETENT` runs in every state is log entry 8. -/
def Obligations.StepIsFromOneToOneHundred : Prop :=
  ∀ (m : Mode) (s : State) (dir : Direction) (now : Word),
    1 ≤ stepSize (configOf m) s dir now ∧ stepSize (configOf m) s dir now ≤ 100 ∧
      ∀ t, execWith (configOf m) (.detent dir now) s = .next t → t.count ≠ s.count

/-- With a multiplier of 0 or more a longer interval never gives a larger step (41_accumulator.md section 2, derived there). -/
def Obligations.LongerIntervalNeverGivesALargerStep : Prop :=
  ∀ (s : State) (dir : Direction) (now1 now2 : Word), 0 ≤ s.mult → dtTicks s now1 ≤ dtTicks s now2 →
    stepSize built s dir now2 ≤ stepSize built s dir now1

/-- For the same state and time a decrement step is at least the increment step, for every multiplier (41_accumulator.md
section 2, derived there). -/
def Obligations.DecrementStepIsAtLeastTheIncrementStep : Prop :=
  ∀ (s : State) (now : Word), stepSize built s .cw now ≤ stepSize built s .ccw now

/-- The source's testable values at multiplier 1 (41_accumulator.md section 2, derived there), as the count of a detent on an
empty counter. That an issued `DETENT` runs in every state is the model's choice, log entry 8. -/
def Obligations.DetentsAtTheSourcesIntervals : Prop :=
  ∀ (s : State) (now : Word), s.vsEn = true → s.mult = 1 → s.count = 0#32 →
    ∃ tcw tccw, exec (.detent .cw now) s = .next tcw ∧ exec (.detent .ccw now) s = .next tccw ∧
      (dtTicks s now ≤ 5000 → tcw.count.toInt = 10 ∧ tccw.count.toInt = -50) ∧
      (250000 ≤ dtTicks s now → tcw.count.toInt = 1 ∧ tccw.count.toInt = -1) ∧
      (dtTicks s now = 127500 → tcw.count.toInt = 6 ∧ tccw.count.toInt = -26)

/-- Corner multipliers (41_accumulator.md section 3, derived there): 0 and negative ones give step 1; 10 saturates at 100. -/
def Obligations.CornerMultipliers : Prop :=
  ∀ (s : State) (dir : Direction) (now : Word), s.vsEn = true →
    (s.mult ≤ 0 → stepSize built s dir now = 1) ∧
      (s.mult = 10 → dtTicks s now ≤ 5000 → stepSize built s .cw now = 100) ∧
      (s.mult = 10 → dtTicks s now ≤ 205000 → stepSize built s .ccw now = 100)

/-- Where an exact tie occurs at multiplier 1, by interval in ticks (41_accumulator.md section 1): once on the increment curve,
49 times on the decrement curve. A tie is the spec's decision D10 to round upward. -/
def Obligations.TiesOfTheDefaultCurves : Prop :=
  ∀ (ticks : Nat),
    ((∃ k : Int, clampQ (interpolateQ incCurve ((ticks : Rat) / 1000)) 1 100 = (k : Rat) + 1 / 2) ↔ ticks = 127500) ∧
      ((∃ k : Int, clampQ (interpolateQ decCurve ((ticks : Rat) / 1000)) 1 100 = (k : Rat) + 1 / 2) ↔
        ∃ j : Nat, j < 49 ∧ ticks = 7500 + 5000 * j)

/-- `SET_VS` (R111) writes `VS_EN` and nothing else, and the next detent uses the new value. Its op code is `0b010`. -/
def Obligations.SetVsWritesTheFlagOnly : Prop :=
  (∀ w : CmdWord, opCode w = 0b010#3 → decode w = .setVs (w.getLsbD 3)) ∧
    ∀ (s : State) (en : Bool),
      exec (.setVs en) s = .next { s with vsEn := en, results := s.results ++ [.nothing] } ∧
        ∀ t, exec (.setVs en) s = .next t → (t.vsEn = s.vsEn → SameRegisters s t) ∧
          ∀ dir now, stepSize built t dir now = if en then variableStep built dir (dtTicks s now) s.mult else 1

/-- `SET_MULT` (R112) writes `MULT` and nothing else: the rational number of the abstract operation, or the number the 32 bits
denote under `MULT_FMT`; the next detent uses it (the rule's example: 2 at 127.5 ms gives a CW step of 11). Its op code is
`0b011`. -/
def Obligations.SetMultWritesTheMultiplierOnly : Prop :=
  (∀ w : CmdWord, opCode w = 0b011#3 → decode w = .setMult (.word (w.extractLsb' 3 32))) ∧
    variableStep built .cw 127500 2 = 11 ∧
    ∀ (s : State) (m : MultOperand) (q : Rat),
      (m = .value q ∨ ∃ bits, m = .word bits ∧ binary32 bits = some q) →
        exec (.setMult m) s = .next { s with mult := q, results := s.results ++ [.nothing] } ∧
          ∀ t, exec (.setMult m) s = .next t →
            ∀ dir now, stepSize built t dir now = if s.vsEn then variableStep built dir (dtTicks s now) q else 1

/-- A `SET_MULT` whose bits are no number (exponent field 255) is refused and changes no register (41_accumulator.md section 3;
the spec's decision D12). -/
def Obligations.SetMultOfNoNumberChangesNothing : Prop :=
  ∀ (s : State) (bits : Word), bits.extractLsb' 23 8 = 255#8 →
    exec (.setMult (.word bits)) s = .next { s with results := s.results ++ [.declined .notANumber] }

/-- `CONFIGURE` is its two stores, in either order (41_accumulator.md section 3; D15): both orders end in the same registers,
and a detent between the stores sees one new and one old value. The wrap of `COUNT` is D7; the detent is one issued on the
accumulator taken alone (log entry 8). -/
def Obligations.ConfigureIsTwoStoresInEitherOrder : Prop :=
  ∀ (s : State) (en : Bool) (q : Rat) (dir : Direction) (now : Word),
    configureOrders en (.value q) = [[.setVs en, .setMult (.value q)], [.setMult (.value q), .setVs en]] ∧
      (∀ o ∈ configureOrders en (.value q), runTrace built o s =
        .next { s with vsEn := en, mult := q, results := s.results ++ [.nothing, .nothing] }) ∧
      (∃ t, runTrace built [.setVs en, .detent dir now, .setMult (.value q)] s = .next t ∧
        t.count.toInt = wrapInt 32 (s.count.toInt +
          signedBy dir (if en then variableStep built dir (dtTicks s now) s.mult else 1))) ∧
      ∃ t, runTrace built [.setMult (.value q), .detent dir now, .setVs en] s = .next t ∧
        t.count.toInt = wrapInt 32 (s.count.toInt +
          signedBy dir (if s.vsEn then variableStep built dir (dtTicks s now) q else 1))

/-- The timing base of a detent is the most recent detent (41_accumulator.md section 1), whether an `EDGE` that emitted ran it,
as in the assembled block, or an issued `DETENT` (log entry 8): whatever operations that ran no detent stand between, `EDGE`s
that emit nothing and `SET_VS` of either value among them, and whatever `VS_EN` was at that detent. The wrap of `COUNT` is the
spec's decision D7. -/
def Obligations.TimingBaseIsTheMostRecentDetent : Prop :=
  ∀ (c : Config) (s r u t : State) (i j : Instr) (d1 d2 : Direction) (now1 now2 : Word) (mid : List Instr) (new : List Result),
    execWith c i s = .next r → RanDetent i s r d1 now1 →
    runTrace c mid r = .next u → u.results = r.results ++ new → RanNoDetent mid new →
    execWith c j u = .next t → RanDetent j u t d2 now2 →
      t.count.toInt = wrapInt 32 (u.count.toInt +
        signedBy d2 (if u.vsEn then variableStep c d2 (now2 - now1).toNat u.mult else 1))

/-- The first interval after reset is measured from `TS_RESET` (41_accumulator.md section 4, derived there): on any instance,
after any trace from reset that ran no detent, and in any state whose `LAST_TS` is still that. On this hardware, where
`TS_RESET` = 0 (the spec's decision D11), the interval is the reading of the time source itself, and the first detent, whether
an `EDGE` that emits or an issued `DETENT` (log entry 8) runs it, adds the step of that interval (with the wrap, D7). -/
def Obligations.FirstIntervalIsMeasuredFromTsReset : Prop :=
  (∀ (c : Config) (u : State) (now : Word) (is : List Instr),
    (runTrace c is (State.resetOf c) = .next u → RanNoDetent is u.results → u.lastTs = c.tsReset) ∧
      (u.lastTs = c.tsReset → dtTicks u now = (now - c.tsReset).toNat)) ∧
    (∀ (s : State) (now : Word), s.lastTs = 0#32 → s.vsEn = true → s.mult = 1 →
      dtTicks s now = now.toNat ∧ (250000 ≤ now.toNat → ∀ dir, stepSize built s dir now = 1) ∧
        (now.toNat < 5000 → stepSize built s .cw now = 10 ∧ stepSize built s .ccw now = 50)) ∧
    ∀ (is : List Instr) (u t : State) (j : Instr) (dir : Direction) (now : Word),
      runTrace built is State.reset = .next u → RanNoDetent is u.results →
      exec j u = .next t → RanDetent j u t dir now →
        t.count.toInt = wrapInt 32 (u.count.toInt +
          signedBy dir (if u.vsEn then variableStep built dir now.toNat u.mult else 1))

/-! ### The drain -/

/-- `DRAIN` (R130) returns `COUNT` and clears it in one step, whether or not `INIT` has been issued, and changes nothing else.
Its op code is `0b001`. -/
def Obligations.DrainReturnsTheCountAndClearsIt : Prop :=
  (∀ w : CmdWord, opCode w = 0b001#3 → decode w = .drain) ∧
    ∀ s : State, exec .drain s = .next { s with count := 0#32, results := s.results ++ [.drained s.count.toInt] }

/-- R132: a `DRAIN` after a `DRAIN`, with no emitted event, no `DETENT` and no `INJECT` between, returns 0 and changes no
register. -/
def Obligations.SecondDrainReturnsZero : Prop :=
  ∀ (s u v t : State) (mid : List Instr) (new : List Result), exec .drain s = .next u →
    (∀ i ∈ mid, isDetent i = false ∧ ∀ x, i ≠ .inject x) →
    runTrace built mid u = .next v → v.results = u.results ++ new → eventCount .cw new = 0 → eventCount .ccw new = 0 →
    exec .drain v = .next t → t.results = v.results ++ [.drained 0] ∧ SameRegisters v t

/-- `INJECT` adds its operand to `COUNT`, wrapping into 32 bits (the wrap is the spec's decision D7), and changes nothing else
(42_drain.md section 2). -/
def Obligations.InjectAddsItsOperand : Prop :=
  ∀ (s : State) (v : Word), ∃ t, exec (.inject v) s = .next t ∧
    t = { s with count := t.count, results := s.results ++ [.nothing] } ∧
    t.count.toInt = wrapInt 32 (s.count.toInt + v.toInt)

/-- The conservation law (42_drain.md section 1, derived there): over any trace from any state, what was drained and what is
left equal what was there, what the detents added and what was injected, modulo 2^32, and exactly if no addition wrapped. For
every instance. -/
def Obligations.CountIsConserved : Prop :=
  ∀ (c : Config) (is : List Instr) (s t : State), runTrace c is s = .next t →
    let lhs := drainedSum t.results + t.count.toInt
    let rhs := drainedSum s.results + s.count.toInt + turnSum c is s + injectSum is
    lhs % 2 ^ 32 = rhs % 2 ^ 32 ∧ (NoWrap c is s → lhs = rhs)

/-- With variable speed off throughout, the net count of a run is the number of clockwise events less the number of
counter-clockwise events, plus what was injected (42_drain.md section 1, derived there; an event is a detent event, C5): of a run
from any state with `VS_EN` = 0, counted over the results the run adds, and so of a run that turns variable speed off after
reset, whatever else comes before that. The wrap is the spec's decision D7. -/
def Obligations.NetCountIsClockwiseLessCounterClockwiseEvents : Prop :=
  (∀ (m : Mode) (is : List Instr) (s t : State), s.vsEn = false → (∀ i ∈ is, i ≠ .setVs true ∧ isDetent i = false) →
    runTrace (configOf m) is s = .next t →
      ∃ new, t.results = s.results ++ new ∧
        let received := drainedSum new + t.count.toInt
        let net : Int := s.count.toInt + ((eventCount .cw new : Int) - eventCount .ccw new + injectSum is)
        received % 2 ^ 32 = net % 2 ^ 32 ∧ (NoWrap (configOf m) is s → received = net)) ∧
    ∀ (m : Mode) (first is : List Instr) (t : State), (∀ i ∈ first, isEdge i = false ∧ isDetent i = false) →
      (∀ i ∈ is, i ≠ .setVs true ∧ isDetent i = false) →
      runTrace (configOf m) (first ++ .setVs false :: is) (State.resetOf (configOf m)) = .next t →
        let received := drainedSum t.results + t.count.toInt
        let net := (eventCount .cw t.results : Int) - eventCount .ccw t.results + injectSum (first ++ is)
        received % 2 ^ 32 = net % 2 ^ 32 ∧
          (NoWrap (configOf m) (first ++ .setVs false :: is) (State.resetOf (configOf m)) → received = net)

/-- Where the drains and injections fall between the detents does not change the total (20_memory.md section 3, 42_drain.md
section 1): two interleavings of the same operations of the two contexts end with the same `STATE` and `LAST_TS`, and with the
same sum of drained and remaining counts modulo 2^32. -/
def Obligations.InterleavingDoesNotChangeTheTotal : Prop :=
  ∀ (c : Config) (is js : List Instr) (s t : State), (∀ i ∈ is, isCounting i = true) → (∀ j ∈ js, isCounting j = true) →
    is.filter (fun i => issuer i = some .irq) = js.filter (fun j => issuer j = some .irq) →
    is.filter (fun i => issuer i = some .poll) = js.filter (fun j => issuer j = some .poll) →
    runTrace c is s = .next t →
      ∃ u, runTrace c js s = .next u ∧ u.stateReg = t.stateReg ∧ u.lastTs = t.lastTs ∧
        (drainedSum u.results + u.count.toInt) % 2 ^ 32 = (drainedSum t.results + t.count.toInt) % 2 ^ 32

/-- From an empty counter no addition wraps within 21,474,836 operations, if none of them is an `INJECT`
(70_reset_and_hazards.md section 2, derived there: a detent event changes `COUNT` by at most 100). -/
def Obligations.NoWrapWithinTwentyOneMillionEvents : Prop :=
  ∀ (m : Mode) (is : List Instr) (s : State), s.count = 0#32 → is.length ≤ 21474836 → (∀ i ∈ is, ∀ x, i ≠ .inject x) →
    NoWrap (configOf m) is s

/-! ### Initialisation and the whole machine -/

/-- `INIT` sets `ARMED` and nothing else; a second one is refused and changes no register (70_reset_and_hazards.md section 1;
the spec's decision D19). -/
def Obligations.InitArmsOnce : Prop :=
  ∀ s : State,
    (s.armed = false → exec .init s = .next { s with armed := true, results := s.results ++ [.nothing] }) ∧
      (s.armed = true → exec .init s = .next { s with results := s.results ++ [.declined .secondInit] })

/-- Every word with op code `0b111` is refused: it changes no register and returns nothing, and that is its whole effect
(30_encoding.md section 4; the spec's decision D23; that the block goes on is log entry 2). The operation type has no
constructor for it: no operation is the reserved code, and every other instruction is exactly one operation. -/
def Obligations.ReservedOpCodeChangesNothing : Prop :=
  (∀ w : CmdWord, decode w = .reserved ↔ opCode w = 0b111#3) ∧
    (∀ s : State, exec .reserved s = .next { s with results := s.results ++ [.declined .reservedOpCode] }) ∧
    (∀ o, operationInstr o ≠ .reserved) ∧
    ∀ i, i ≠ .reserved → ∃ o, operationInstr o = i ∧ ∀ p, operationInstr p = i → p = o

/-- Which operations write which register (10_state.md sections 1 and 8), for every instance: `STATE` only `EDGE`; `LAST_TS`
only `EDGE` and `DETENT`; `COUNT` only these, `DRAIN` and `INJECT`; `VS_EN` only `SET_VS`; `MULT` only `SET_MULT`; `ARMED` only
`INIT`, which sets it, and nothing clears it. No operation touches what is issued after it. -/
def Obligations.EachRegisterHasItsWriters : Prop :=
  ∀ (c : Config) (i : Instr) (s t : State), execWith c i s = .next t →
    (t.stateReg ≠ s.stateReg → isEdge i = true ∧ s.armed = true) ∧
      (t.lastTs ≠ s.lastTs → isEdge i = true ∨ isDetent i = true) ∧
      (t.count ≠ s.count → isCounting i = true) ∧
      (t.vsEn ≠ s.vsEn → i = .setVs t.vsEn) ∧
      (t.mult ≠ s.mult → ∃ m, i = .setMult m ∧ multOperandValue c m = some t.mult) ∧
      (t.armed ≠ s.armed → i = .init ∧ s.armed = false ∧ t.armed = true) ∧
      t.pending = s.pending

/-- The contexts keep to their registers (10_state.md section 8, 60_exceptions.md section 5): no operation of the polling
context writes `STATE` or `LAST_TS`, none of the interrupt context writes `VS_EN`, `MULT` or `ARMED`, and the code nobody issues
writes no register. -/
def Obligations.ContextsKeepToTheirRegisters : Prop :=
  ∀ (c : Config) (i : Instr) (s t : State), execWith c i s = .next t →
    (issuer i = some .poll → t.stateReg = s.stateReg ∧ t.lastTs = s.lastTs) ∧
      (issuer i = some .irq → t.vsEn = s.vsEn ∧ t.mult = s.mult ∧ t.armed = s.armed) ∧
      (issuer i = none → SameRegisters s t)

/-- A refused operation changes no register (60_exceptions.md section 1), and the operations refused are the three the spec
lists: the reserved op code, a second `INIT`, a multiplier that is no number. -/
def Obligations.RefusedOperationsChangeNoRegister : Prop :=
  ∀ (c : Config) (i : Instr) (s t : State) (why : Declined), execWith c i s = .next t →
    t.results = s.results ++ [.declined why] →
      SameRegisters s t ∧
        match why with
        | .reservedOpCode => i = .reserved
        | .secondInit => i = .init ∧ s.armed = true
        | .notANumber => ∃ m, i = .setMult m ∧ multOperandValue c m = none

/-! ### The constants of this hardware -/

/-- The entries of both tables (30_encoding.md section 2; they are general knowledge, GK1 and GK2, adopted by the spec's decision
D4), as what `EDGE` stores in `STATE`: this hardware has the half-step table. Rows are written from row 0, columns from sample
0. -/
def Obligations.EdgeStoresThePrintedTableEntry : Prop :=
  let half : List (List Byte) :=
    [ [0x03#8, 0x02#8, 0x01#8, 0x00#8], [0x23#8, 0x00#8, 0x01#8, 0x00#8], [0x13#8, 0x02#8, 0x00#8, 0x00#8],
      [0x03#8, 0x05#8, 0x04#8, 0x00#8], [0x03#8, 0x03#8, 0x04#8, 0x10#8], [0x03#8, 0x05#8, 0x03#8, 0x20#8] ]
  let full : List (List Byte) :=
    [ [0x00#8, 0x02#8, 0x04#8, 0x00#8], [0x03#8, 0x00#8, 0x01#8, 0x10#8], [0x03#8, 0x02#8, 0x00#8, 0x00#8],
      [0x03#8, 0x02#8, 0x01#8, 0x00#8], [0x06#8, 0x00#8, 0x04#8, 0x00#8], [0x06#8, 0x05#8, 0x00#8, 0x20#8],
      [0x06#8, 0x05#8, 0x04#8, 0x00#8] ]
  let entry (tt : List (List Byte)) (r : Nat) (x : Sample) : Option Byte := (tt[r]?).bind fun row => row[x.toNat]?
  ∀ (s : State) (sample : Sample) (now : Word), s.armed = true →
    (rowOf s < 6 → ∃ t, exec (.edge sample now) s = .next t ∧ entry half (rowOf s) sample = some t.stateReg) ∧
      (rowOf s < 7 → ∃ t, execWith (configOf .full) (.edge sample now) s = .next t ∧
        entry full (rowOf s) sample = some t.stateReg)

/-- What is compiled in (00_scope.md section 3): the one mode `HALF` (D3) with its 6 rows, the other with 7; the curves' control
points are the source's, the clamp range [1, 100] too, and there are 1000 ticks in a millisecond; exact arithmetic is D9 and
binary32 a default of the spec. -/
def Obligations.BuiltInstanceHoldsTheListedConstants : Prop :=
  built.mode = .half ∧ built.table.length = 6 ∧ (configOf .full).table.length = 7 ∧ built = configOf .half ∧
    built.inc = ⟨⟨5, 10⟩, ⟨250, 1⟩⟩ ∧ built.dec = ⟨⟨5, 50⟩, ⟨250, 1⟩⟩ ∧ built.clampLo = 1 ∧ built.clampHi = 100 ∧
    built.ticksPerMs = 1000 ∧ built.num = exactNum ∧ built.multFmt = binary32
end

