-- ==== Sys2Proof/Laws/Numeric.lean ====
section
/-! SUPPORT. The arithmetic primitives: what a wrap keeps, the bounds of the clamp and of the rounding, the two curves. -/

namespace Sys2Proof.Machine

theorem wrapWord_toInt (x : Int) : (wrapWord x).toInt = wrapInt 32 x := by
  simp only [wrapWord, BitVec.toInt_ofInt, wrapInt, toSignedInt, umodInt, Int.bmod]
  norm_num

theorem wrapWord_toInt_emod (x : Int) : (wrapWord x).toInt % 2 ^ 32 = x % 2 ^ 32 := by
  rw [wrapWord_toInt]
  unfold wrapInt toSignedInt umodInt
  split <;> omega

/-- An addition in the range of `COUNT` does not wrap. -/
theorem wrapWord_toInt_of_range {x : Int} (lo : -2 ^ 31 ≤ x) (hi : x < 2 ^ 31) : (wrapWord x).toInt = x := by
  rw [wrapWord_toInt]
  unfold wrapInt toSignedInt umodInt
  split <;> omega

theorem clampQ_mem {x lo hi : Rat} (h : lo ≤ hi) : lo ≤ clampQ x lo hi ∧ clampQ x lo hi ≤ hi :=
  ⟨le_min (le_max_right x lo) h, min_le_right _ _⟩

theorem clampQ_mono {x y lo hi : Rat} (h : x ≤ y) : clampQ x lo hi ≤ clampQ y lo hi :=
  min_le_min_right hi (max_le_max_right lo h)

theorem roundHalfUp_mono {x y : Rat} (h : x ≤ y) : roundHalfUp x ≤ roundHalfUp y :=
  Int.floor_mono (by linarith)

/-- The rounding is the integer within one half, the upper one at a tie. -/
theorem roundHalfUp_eq_iff {x : Rat} {k : Int} : roundHalfUp x = k ↔ (k : Rat) - 1 / 2 ≤ x ∧ x < k + 1 / 2 := by
  rw [roundHalfUp, Int.floor_eq_iff]
  constructor <;> rintro ⟨h1, h2⟩ <;> constructor <;> linarith

/-- A value clamped to [1, 100] rounds to a step from 1 to 100. -/
theorem roundHalfUp_clamp_mem (x : Rat) : 1 ≤ roundHalfUp (clampQ x 1 100) ∧ roundHalfUp (clampQ x 1 100) ≤ 100 := by
  have h := clampQ_mem (x := x) (lo := 1) (hi := 100) (by norm_num)
  constructor
  · exact Int.le_floor.2 (by push_cast; linarith [h.1])
  · exact Int.lt_add_one_iff.1 (Int.floor_lt.2 (by push_cast; linarith [h.2]))

/-- The increment curve (R103). -/
theorem interpolateQ_inc (dt : Rat) :
    interpolateQ incCurve dt = if dt ≤ 5 then 10 else if 250 ≤ dt then 1 else 10 - 9 * (dt - 5) / 245 := by
  unfold interpolateQ
  change (if dt ≤ 5 then (10 : Rat) else if 250 ≤ dt then 1 else 10 + (dt - 5) * (1 - 10) / (250 - 5)) = _
  split_ifs <;> ring

/-- The decrement curve (R103). -/
theorem interpolateQ_dec (dt : Rat) :
    interpolateQ decCurve dt = if dt ≤ 5 then 50 else if 250 ≤ dt then 1 else 50 - (dt - 5) / 5 := by
  unfold interpolateQ
  change (if dt ≤ 5 then (50 : Rat) else if 250 ≤ dt then 1 else 50 + (dt - 5) * (1 - 50) / (250 - 5)) = _
  split_ifs <;> ring

/-- The step of an instance of this hardware's parameters, written out (R101 to R104). -/
theorem variableStep_configOf (m : Mode) (dir : Direction) (ticks : Nat) (mult : Rat) :
    variableStep (configOf m) dir ticks mult =
      roundHalfUp (clampQ (interpolateQ (curveFor (configOf m) dir) ((ticks : Rat) / 1000) * mult) 1 100) := by
  simp [variableStep, configOf, exactNum]

theorem variableStep_mem (m : Mode) (dir : Direction) (ticks : Nat) (mult : Rat) :
    1 ≤ variableStep (configOf m) dir ticks mult ∧ variableStep (configOf m) dir ticks mult ≤ 100 := by
  rw [variableStep_configOf]
  exact roundHalfUp_clamp_mem _

end Sys2Proof.Machine
end

