-- ==== Sys2Proof/Laws/State.lean ====
section
/-! SUPPORT. One lemma for each field of each register update, so that no proof unfolds a record update. -/

namespace Sys2Proof.Machine

@[simp] theorem setStateReg_stateReg (s : State) (e : Byte) : (setStateReg s e).stateReg = e := rfl
@[simp] theorem setStateReg_lastTs (s : State) (e : Byte) : (setStateReg s e).lastTs = s.lastTs := rfl
@[simp] theorem setStateReg_count (s : State) (e : Byte) : (setStateReg s e).count = s.count := rfl
@[simp] theorem setStateReg_vsEn (s : State) (e : Byte) : (setStateReg s e).vsEn = s.vsEn := rfl
@[simp] theorem setStateReg_mult (s : State) (e : Byte) : (setStateReg s e).mult = s.mult := rfl
@[simp] theorem setStateReg_armed (s : State) (e : Byte) : (setStateReg s e).armed = s.armed := rfl
@[simp] theorem setStateReg_pending (s : State) (e : Byte) : (setStateReg s e).pending = s.pending := rfl
@[simp] theorem setStateReg_results (s : State) (e : Byte) : (setStateReg s e).results = s.results := rfl

@[simp] theorem setLastTs_stateReg (s : State) (t : Word) : (setLastTs s t).stateReg = s.stateReg := rfl
@[simp] theorem setLastTs_lastTs (s : State) (t : Word) : (setLastTs s t).lastTs = t := rfl
@[simp] theorem setLastTs_count (s : State) (t : Word) : (setLastTs s t).count = s.count := rfl
@[simp] theorem setLastTs_vsEn (s : State) (t : Word) : (setLastTs s t).vsEn = s.vsEn := rfl
@[simp] theorem setLastTs_mult (s : State) (t : Word) : (setLastTs s t).mult = s.mult := rfl
@[simp] theorem setLastTs_armed (s : State) (t : Word) : (setLastTs s t).armed = s.armed := rfl
@[simp] theorem setLastTs_pending (s : State) (t : Word) : (setLastTs s t).pending = s.pending := rfl
@[simp] theorem setLastTs_results (s : State) (t : Word) : (setLastTs s t).results = s.results := rfl

@[simp] theorem setCount_stateReg (s : State) (v : Word) : (setCount s v).stateReg = s.stateReg := rfl
@[simp] theorem setCount_lastTs (s : State) (v : Word) : (setCount s v).lastTs = s.lastTs := rfl
@[simp] theorem setCount_count (s : State) (v : Word) : (setCount s v).count = v := rfl
@[simp] theorem setCount_vsEn (s : State) (v : Word) : (setCount s v).vsEn = s.vsEn := rfl
@[simp] theorem setCount_mult (s : State) (v : Word) : (setCount s v).mult = s.mult := rfl
@[simp] theorem setCount_armed (s : State) (v : Word) : (setCount s v).armed = s.armed := rfl
@[simp] theorem setCount_pending (s : State) (v : Word) : (setCount s v).pending = s.pending := rfl
@[simp] theorem setCount_results (s : State) (v : Word) : (setCount s v).results = s.results := rfl

@[simp] theorem setVsEn_stateReg (s : State) (en : Bool) : (setVsEn s en).stateReg = s.stateReg := rfl
@[simp] theorem setVsEn_lastTs (s : State) (en : Bool) : (setVsEn s en).lastTs = s.lastTs := rfl
@[simp] theorem setVsEn_count (s : State) (en : Bool) : (setVsEn s en).count = s.count := rfl
@[simp] theorem setVsEn_vsEn (s : State) (en : Bool) : (setVsEn s en).vsEn = en := rfl
@[simp] theorem setVsEn_mult (s : State) (en : Bool) : (setVsEn s en).mult = s.mult := rfl
@[simp] theorem setVsEn_armed (s : State) (en : Bool) : (setVsEn s en).armed = s.armed := rfl
@[simp] theorem setVsEn_pending (s : State) (en : Bool) : (setVsEn s en).pending = s.pending := rfl
@[simp] theorem setVsEn_results (s : State) (en : Bool) : (setVsEn s en).results = s.results := rfl

@[simp] theorem setMult_stateReg (s : State) (m : Rat) : (setMult s m).stateReg = s.stateReg := rfl
@[simp] theorem setMult_lastTs (s : State) (m : Rat) : (setMult s m).lastTs = s.lastTs := rfl
@[simp] theorem setMult_count (s : State) (m : Rat) : (setMult s m).count = s.count := rfl
@[simp] theorem setMult_vsEn (s : State) (m : Rat) : (setMult s m).vsEn = s.vsEn := rfl
@[simp] theorem setMult_mult (s : State) (m : Rat) : (setMult s m).mult = m := rfl
@[simp] theorem setMult_armed (s : State) (m : Rat) : (setMult s m).armed = s.armed := rfl
@[simp] theorem setMult_pending (s : State) (m : Rat) : (setMult s m).pending = s.pending := rfl
@[simp] theorem setMult_results (s : State) (m : Rat) : (setMult s m).results = s.results := rfl

@[simp] theorem setArmed_stateReg (s : State) (a : Bool) : (setArmed s a).stateReg = s.stateReg := rfl
@[simp] theorem setArmed_lastTs (s : State) (a : Bool) : (setArmed s a).lastTs = s.lastTs := rfl
@[simp] theorem setArmed_count (s : State) (a : Bool) : (setArmed s a).count = s.count := rfl
@[simp] theorem setArmed_vsEn (s : State) (a : Bool) : (setArmed s a).vsEn = s.vsEn := rfl
@[simp] theorem setArmed_mult (s : State) (a : Bool) : (setArmed s a).mult = s.mult := rfl
@[simp] theorem setArmed_armed (s : State) (a : Bool) : (setArmed s a).armed = a := rfl
@[simp] theorem setArmed_pending (s : State) (a : Bool) : (setArmed s a).pending = s.pending := rfl
@[simp] theorem setArmed_results (s : State) (a : Bool) : (setArmed s a).results = s.results := rfl

@[simp] theorem setPending_stateReg (s : State) (p : List Command) : (setPending s p).stateReg = s.stateReg := rfl
@[simp] theorem setPending_lastTs (s : State) (p : List Command) : (setPending s p).lastTs = s.lastTs := rfl
@[simp] theorem setPending_count (s : State) (p : List Command) : (setPending s p).count = s.count := rfl
@[simp] theorem setPending_vsEn (s : State) (p : List Command) : (setPending s p).vsEn = s.vsEn := rfl
@[simp] theorem setPending_mult (s : State) (p : List Command) : (setPending s p).mult = s.mult := rfl
@[simp] theorem setPending_armed (s : State) (p : List Command) : (setPending s p).armed = s.armed := rfl
@[simp] theorem setPending_pending (s : State) (p : List Command) : (setPending s p).pending = p := rfl
@[simp] theorem setPending_results (s : State) (p : List Command) : (setPending s p).results = s.results := rfl

@[simp] theorem yieldResult_stateReg (s : State) (r : Result) : (yieldResult s r).stateReg = s.stateReg := rfl
@[simp] theorem yieldResult_lastTs (s : State) (r : Result) : (yieldResult s r).lastTs = s.lastTs := rfl
@[simp] theorem yieldResult_count (s : State) (r : Result) : (yieldResult s r).count = s.count := rfl
@[simp] theorem yieldResult_vsEn (s : State) (r : Result) : (yieldResult s r).vsEn = s.vsEn := rfl
@[simp] theorem yieldResult_mult (s : State) (r : Result) : (yieldResult s r).mult = s.mult := rfl
@[simp] theorem yieldResult_armed (s : State) (r : Result) : (yieldResult s r).armed = s.armed := rfl
@[simp] theorem yieldResult_pending (s : State) (r : Result) : (yieldResult s r).pending = s.pending := rfl
@[simp] theorem yieldResult_results (s : State) (r : Result) : (yieldResult s r).results = s.results ++ [r] := rfl

@[simp] theorem addCount_stateReg (s : State) (x : Int) : (addCount s x).stateReg = s.stateReg := rfl
@[simp] theorem addCount_lastTs (s : State) (x : Int) : (addCount s x).lastTs = s.lastTs := rfl
@[simp] theorem addCount_count (s : State) (x : Int) : (addCount s x).count = wrapWord (s.count.toInt + x) := rfl
@[simp] theorem addCount_vsEn (s : State) (x : Int) : (addCount s x).vsEn = s.vsEn := rfl
@[simp] theorem addCount_mult (s : State) (x : Int) : (addCount s x).mult = s.mult := rfl
@[simp] theorem addCount_armed (s : State) (x : Int) : (addCount s x).armed = s.armed := rfl
@[simp] theorem addCount_pending (s : State) (x : Int) : (addCount s x).pending = s.pending := rfl
@[simp] theorem addCount_results (s : State) (x : Int) : (addCount s x).results = s.results := rfl

@[simp] theorem decline_stateReg (s : State) (w : Declined) : (decline s w).stateReg = s.stateReg := rfl
@[simp] theorem decline_lastTs (s : State) (w : Declined) : (decline s w).lastTs = s.lastTs := rfl
@[simp] theorem decline_count (s : State) (w : Declined) : (decline s w).count = s.count := rfl
@[simp] theorem decline_vsEn (s : State) (w : Declined) : (decline s w).vsEn = s.vsEn := rfl
@[simp] theorem decline_mult (s : State) (w : Declined) : (decline s w).mult = s.mult := rfl
@[simp] theorem decline_armed (s : State) (w : Declined) : (decline s w).armed = s.armed := rfl
@[simp] theorem decline_pending (s : State) (w : Declined) : (decline s w).pending = s.pending := rfl
@[simp] theorem decline_results (s : State) (w : Declined) : (decline s w).results = s.results ++ [.declined w] := rfl

@[simp] theorem setPending_self (s : State) : setPending s s.pending = s := rfl

@[simp] theorem setPending_setPending (s : State) (p q : List Command) : setPending (setPending s p) q = setPending s q := rfl

/-- Two states with equal fields are equal. -/
theorem State.ext_fields {s t : State} (h1 : s.stateReg = t.stateReg) (h2 : s.lastTs = t.lastTs) (h3 : s.count = t.count)
    (h4 : s.vsEn = t.vsEn) (h5 : s.mult = t.mult) (h6 : s.armed = t.armed) (h7 : s.pending = t.pending)
    (h8 : s.results = t.results) : s = t := by
  cases s; cases t; simp_all

@[simp] theorem resetOf_stateReg (c : Config) : (State.resetOf c).stateReg = 0x00#8 := rfl
@[simp] theorem resetOf_lastTs (c : Config) : (State.resetOf c).lastTs = c.tsReset := rfl
@[simp] theorem resetOf_count (c : Config) : (State.resetOf c).count = 0#32 := rfl
@[simp] theorem resetOf_vsEn (c : Config) : (State.resetOf c).vsEn = c.vsEnReset := rfl
@[simp] theorem resetOf_mult (c : Config) : (State.resetOf c).mult = c.multReset := rfl
@[simp] theorem resetOf_armed (c : Config) : (State.resetOf c).armed = false := rfl
@[simp] theorem resetOf_pending (c : Config) : (State.resetOf c).pending = [] := rfl
@[simp] theorem resetOf_results (c : Config) : (State.resetOf c).results = [] := rfl

end Sys2Proof.Machine
end

