-- ==== Sys2Proof/Laws/Ops.lean ====
section
/-! SUPPORT. One lemma for each shared operation that says everything it can do. -/

namespace Sys2Proof.Machine

/-- What taking the edge interrupt can answer: before `INIT` the state itself, after it what the handler answers. -/
theorem takeEdgeInterrupt_cases (s : State) (h : State → Host.Outcome State Fault Refusal) :
    (s.armed = true ∧ takeEdgeInterrupt s h = h s) ∨ (s.armed = false ∧ takeEdgeInterrupt s h = .next s) := by
  cases ha : s.armed <;> simp [takeEdgeInterrupt, ha]

@[simp] theorem applyDetent_stateReg (c : Config) (d : Direction) (now : Word) (s : State) :
    (applyDetent c d now s).stateReg = s.stateReg := rfl
@[simp] theorem applyDetent_lastTs (c : Config) (d : Direction) (now : Word) (s : State) :
    (applyDetent c d now s).lastTs = now := rfl
@[simp] theorem applyDetent_count (c : Config) (d : Direction) (now : Word) (s : State) :
    (applyDetent c d now s).count = wrapWord (s.count.toInt + detentDelta c s d now) := rfl
@[simp] theorem applyDetent_vsEn (c : Config) (d : Direction) (now : Word) (s : State) :
    (applyDetent c d now s).vsEn = s.vsEn := rfl
@[simp] theorem applyDetent_mult (c : Config) (d : Direction) (now : Word) (s : State) :
    (applyDetent c d now s).mult = s.mult := rfl
@[simp] theorem applyDetent_armed (c : Config) (d : Direction) (now : Word) (s : State) :
    (applyDetent c d now s).armed = s.armed := rfl
@[simp] theorem applyDetent_pending (c : Config) (d : Direction) (now : Word) (s : State) :
    (applyDetent c d now s).pending = s.pending := rfl
@[simp] theorem applyDetent_results (c : Config) (d : Direction) (now : Word) (s : State) :
    (applyDetent c d now s).results = s.results := rfl

/-- The step reads `VS_EN`, `LAST_TS` and `MULT` and nothing else (R105). -/
theorem detentDelta_congr {c : Config} {s t : State} (h1 : t.vsEn = s.vsEn) (h2 : t.lastTs = s.lastTs)
    (h3 : t.mult = s.mult) (d : Direction) (now : Word) : detentDelta c t d now = detentDelta c s d now := by
  simp [detentDelta, stepSize, dtTicks, h1, h2, h3]

@[simp] theorem detentDelta_setStateReg (c : Config) (s : State) (e : Byte) (d : Direction) (now : Word) :
    detentDelta c (setStateReg s e) d now = detentDelta c s d now := rfl

@[simp] theorem eventDirection_none : eventDirection .none = none := rfl
@[simp] theorem eventDirection_cw : eventDirection .cw = some .cw := rfl
@[simp] theorem eventDirection_ccw : eventDirection .ccw = some .ccw := rfl

@[simp] theorem detentOnEvent_none (c : Config) (now : Word) (s : State) : detentOnEvent c .none now s = s := rfl
@[simp] theorem detentOnEvent_cw (c : Config) (now : Word) (s : State) :
    detentOnEvent c .cw now s = applyDetent c .cw now s := rfl
@[simp] theorem detentOnEvent_ccw (c : Config) (now : Word) (s : State) :
    detentOnEvent c .ccw now s = applyDetent c .ccw now s := rfl

@[simp] theorem detentOnEvent_stateReg (c : Config) (ev : Event) (now : Word) (s : State) :
    (detentOnEvent c ev now s).stateReg = s.stateReg := by cases ev <;> rfl
@[simp] theorem detentOnEvent_vsEn (c : Config) (ev : Event) (now : Word) (s : State) :
    (detentOnEvent c ev now s).vsEn = s.vsEn := by cases ev <;> rfl
@[simp] theorem detentOnEvent_mult (c : Config) (ev : Event) (now : Word) (s : State) :
    (detentOnEvent c ev now s).mult = s.mult := by cases ev <;> rfl
@[simp] theorem detentOnEvent_armed (c : Config) (ev : Event) (now : Word) (s : State) :
    (detentOnEvent c ev now s).armed = s.armed := by cases ev <;> rfl
@[simp] theorem detentOnEvent_pending (c : Config) (ev : Event) (now : Word) (s : State) :
    (detentOnEvent c ev now s).pending = s.pending := by cases ev <;> rfl
@[simp] theorem detentOnEvent_results (c : Config) (ev : Event) (now : Word) (s : State) :
    (detentOnEvent c ev now s).results = s.results := by cases ev <;> rfl

@[simp] theorem edgeWithEntry_stateReg (c : Config) (e : Byte) (now : Word) (s : State) :
    (edgeWithEntry c e now s).stateReg = e := by simp [edgeWithEntry]
@[simp] theorem edgeWithEntry_vsEn (c : Config) (e : Byte) (now : Word) (s : State) :
    (edgeWithEntry c e now s).vsEn = s.vsEn := by simp [edgeWithEntry]
@[simp] theorem edgeWithEntry_mult (c : Config) (e : Byte) (now : Word) (s : State) :
    (edgeWithEntry c e now s).mult = s.mult := by simp [edgeWithEntry]
@[simp] theorem edgeWithEntry_armed (c : Config) (e : Byte) (now : Word) (s : State) :
    (edgeWithEntry c e now s).armed = s.armed := by simp [edgeWithEntry]
@[simp] theorem edgeWithEntry_pending (c : Config) (e : Byte) (now : Word) (s : State) :
    (edgeWithEntry c e now s).pending = s.pending := by simp [edgeWithEntry]
@[simp] theorem edgeWithEntry_results (c : Config) (e : Byte) (now : Word) (s : State) :
    (edgeWithEntry c e now s).results = s.results ++ [.event (entryEvent e)] := by simp [edgeWithEntry]

/-- An `EDGE` that emits nothing leaves `COUNT` and `LAST_TS` alone; one that emits runs the detent (R83). -/
theorem edgeWithEntry_cases (c : Config) (e : Byte) (now : Word) (s : State) :
    (entryEvent e = .none ∧ (edgeWithEntry c e now s).count = s.count ∧ (edgeWithEntry c e now s).lastTs = s.lastTs) ∨
    ∃ d, eventDirection (entryEvent e) = some d ∧ (edgeWithEntry c e now s).lastTs = now ∧
      (edgeWithEntry c e now s).count = wrapWord (s.count.toInt + detentDelta c s d now) := by
  cases h : entryEvent e <;> simp [edgeWithEntry, h]

/-- A table that R66 admits has an entry for every row below `N` and every sample, whose low nibble is below `N`. -/
theorem tableEntry_of_wf {c : Config} (hw : c.tableWf = true) {r : Nat} (hr : r < c.mode.rows) (s : Sample) :
    ∃ e, tableEntry c r s = some e ∧ entryNext e < c.mode.rows := by
  simp only [Config.tableWf, Bool.and_eq_true, beq_iff_eq, List.all_eq_true, decide_eq_true_eq] at hw
  obtain ⟨hl, ha⟩ := hw
  have hr' : r < c.table.length := by omega
  refine ⟨rowAt c.table[r] s, by simp [tableEntry, hr'], ?_⟩
  have hall := ha c.table[r] (List.getElem_mem hr')
  refine hall _ ?_
  unfold rowAt
  split <;> simp [Row.entries]

/-- Where there is an entry there is a row. -/
theorem tableEntry_some {c : Config} {r : Nat} {s : Sample} {e : Byte} (h : tableEntry c r s = some e) :
    ∃ row ∈ c.table, e ∈ row.entries := by
  simp only [tableEntry, Option.map_eq_some_iff] at h
  obtain ⟨row, hrow, rfl⟩ := h
  refine ⟨row, List.mem_of_getElem? hrow, ?_⟩
  unfold rowAt
  split <;> simp [Row.entries]

theorem configOf_tableWf (m : Mode) : (configOf m).tableWf = true := by cases m <;> decide

theorem configOf_tableTidy (m : Mode) : (configOf m).tableTidy = true := by cases m <;> decide

end Sys2Proof.Machine
end

