-- ==== Sys2Proof/Laws/Exec.lean ====
section
/-! SUPPORT. What each operation can do, once: an inversion lemma for `EDGE`, an equation for every other operation, and the
built instance as the instance of mode `HALF`. -/

namespace Sys2Proof.Machine

/-- `exec` is the operation on the built instance. -/
theorem exec_eq_execWith (i : Instr) (s : State) : exec i s = execWith built i s := by cases i <;> rfl

theorem step_eq_stepWith (s : State) : step s = stepWith built s := by
  unfold step stepWith performNext
  split
  · rfl
  · exact exec_eq_execWith _ _

/-- Everything an `EDGE` can do (R81, R173, U6). -/
theorem execWith_edge_cases (c : Config) (sample : Sample) (now : Word) (s : State) :
    (s.armed = false ∧ execWith c (.edge sample now) s = .next s) ∨
    (s.armed = true ∧ ∃ e, tableEntry c (rowOf s) sample = some e ∧
      execWith c (.edge sample now) s = .next (edgeWithEntry c e now s)) ∨
    (s.armed = true ∧ tableEntry c (rowOf s) sample = none ∧
      execWith c (.edge sample now) s = .fault .rowOutOfRange) := by
  cases ha : s.armed <;> cases he : tableEntry c (rowOf s) sample <;>
    simp [execWith, execEdgeWith, takeEdgeInterrupt, edgeHandler, ha, he]

@[simp] theorem execWith_detent (c : Config) (d : Direction) (now : Word) (s : State) :
    execWith c (.detent d now) s = .next (yieldResult (applyDetent c d now s) .nothing) := rfl
@[simp] theorem execWith_setVs (c : Config) (en : Bool) (s : State) :
    execWith c (.setVs en) s = .next (yieldResult (setVsEn s en) .nothing) := rfl
@[simp] theorem execWith_drain (c : Config) (s : State) :
    execWith c .drain s = .next (yieldResult (setCount s 0#32) (.drained s.count.toInt)) := rfl
@[simp] theorem execWith_inject (c : Config) (v : Word) (s : State) :
    execWith c (.inject v) s = .next (yieldResult (addCount s (injectValue v)) .nothing) := rfl
@[simp] theorem execWith_reserved (c : Config) (s : State) :
    execWith c .reserved s = .next (decline s .reservedOpCode) := rfl

theorem execWith_setMult_some {c : Config} {m : MultOperand} {q : Rat} (h : multOperandValue c m = some q) (s : State) :
    execWith c (.setMult m) s = .next (yieldResult (setMult s q) .nothing) := by
  simp [execWith, execSetMultWith, h]
theorem execWith_setMult_none {c : Config} {m : MultOperand} (h : multOperandValue c m = none) (s : State) :
    execWith c (.setMult m) s = .next (decline s .notANumber) := by
  simp [execWith, execSetMultWith, h]

theorem execWith_init_first (c : Config) {s : State} (h : s.armed = false) :
    execWith c .init s = .next (yieldResult (setArmed s true) .nothing) := by
  simp [execWith, execInit, h]
theorem execWith_init_again (c : Config) {s : State} (h : s.armed = true) :
    execWith c .init s = .next (decline s .secondInit) := by
  simp [execWith, execInit, h]

/-- Everything an operation other than `EDGE` can do: it answers a next state, whose `STATE` is unchanged. -/
theorem execWith_not_edge {c : Config} {i : Instr} (h : isEdge i = false) (s : State) :
    ∃ t, execWith c i s = .next t ∧ t.stateReg = s.stateReg := by
  cases i with
  | edge _ _ => simp [isEdge] at h
  | drain => exact ⟨_, rfl, rfl⟩
  | setVs en => exact ⟨_, rfl, rfl⟩
  | setMult m =>
    cases hm : multOperandValue c m with
    | none => exact ⟨_, execWith_setMult_none hm s, rfl⟩
    | some q => exact ⟨_, execWith_setMult_some hm s, rfl⟩
  | inject v => exact ⟨_, rfl, rfl⟩
  | init =>
    cases ha : s.armed with
    | false => exact ⟨_, execWith_init_first c ha, rfl⟩
    | true => exact ⟨_, execWith_init_again c ha, rfl⟩
  | detent d now => exact ⟨_, rfl, rfl⟩
  | reserved => exact ⟨_, rfl, rfl⟩

/-- Operations do not look at the operations issued after them: performing one commutes with replacing `pending`. -/
theorem execWith_setPending (c : Config) (i : Instr) (s : State) (p : List Command) :
    execWith c i (setPending s p) =
      match execWith c i s with
      | .next t => .next (setPending t p)
      | .fault r => .fault r
      | .refused r => .refused r := by
  cases i with
  | edge sample now =>
    have hrow : rowOf (setPending s p) = rowOf s := rfl
    cases ha : s.armed <;> cases he : tableEntry c (rowOf s) sample <;>
      simp [execWith, execEdgeWith, takeEdgeInterrupt, edgeHandler, ha, he, hrow]
    all_goals
      rename_i e
      cases hev : entryEvent e <;> simp [edgeWithEntry, hev] <;> rfl
  | setMult m => cases hm : multOperandValue c m <;> simp [execWith, execSetMultWith, hm] <;> rfl
  | init => cases ha : s.armed <;> simp [execWith, execInit, ha] <;> rfl
  | drain => rfl
  | setVs en => rfl
  | inject v => rfl
  | detent d now => rfl
  | reserved => rfl

/-- Performing an operation keeps the operations issued after it, and adds at most one result. -/
theorem execWith_frame {c : Config} {i : Instr} {s t : State} (h : execWith c i s = .next t) :
    t.pending = s.pending ∧ (t.results = s.results ∨ ∃ r, t.results = s.results ++ [r]) := by
  cases i with
  | edge sample now =>
    obtain ⟨_, he⟩ | ⟨_, e, _, he⟩ | ⟨_, _, he⟩ := execWith_edge_cases c sample now s <;> rw [he] at h
    · cases h; exact ⟨rfl, .inl rfl⟩
    · cases h; exact ⟨by simp, .inr ⟨_, edgeWithEntry_results ..⟩⟩
    · cases h
  | setMult m =>
    cases hm : multOperandValue c m with
    | none => rw [execWith_setMult_none hm] at h; cases h; exact ⟨rfl, .inr ⟨_, rfl⟩⟩
    | some q => rw [execWith_setMult_some hm] at h; cases h; exact ⟨rfl, .inr ⟨_, rfl⟩⟩
  | init =>
    cases ha : s.armed with
    | false => rw [execWith_init_first c ha] at h; cases h; exact ⟨rfl, .inr ⟨_, rfl⟩⟩
    | true => rw [execWith_init_again c ha] at h; cases h; exact ⟨rfl, .inr ⟨_, rfl⟩⟩
  | drain => cases h; exact ⟨rfl, .inr ⟨_, rfl⟩⟩
  | setVs en => cases h; exact ⟨rfl, .inr ⟨_, rfl⟩⟩
  | inject v => cases h; exact ⟨rfl, .inr ⟨_, rfl⟩⟩
  | detent d now => cases h; exact ⟨rfl, .inr ⟨_, rfl⟩⟩
  | reserved => cases h; exact ⟨rfl, .inr ⟨_, rfl⟩⟩

/-- A trace is its first operation, then the rest. -/
theorem runTrace_cons {c : Config} {i : Instr} {is : List Instr} {s t : State} (h : execWith c i s = .next t) :
    runTrace c (i :: is) s = runTrace c is t := by simp [runTrace, h]

/-- Inversion of a trace that completes. -/
theorem runTrace_cons_next {c : Config} {i : Instr} {is : List Instr} {s u : State} (h : runTrace c (i :: is) s = .next u) :
    ∃ t, execWith c i s = .next t ∧ runTrace c is t = .next u := by
  unfold runTrace at h
  cases he : execWith c i s with
  | next t => rw [he] at h; exact ⟨t, rfl, h⟩
  | fault r => rw [he] at h; cases h
  | refused r => rw [he] at h; cases h

/-- An induction over traces, packaged once: a property of states that every operation keeps holds after a trace. -/
theorem runTrace_keeps {c : Config} {P : State → Prop} (hstep : ∀ i s t, P s → execWith c i s = .next t → P t)
    (is : List Instr) {s u : State} (hs : P s) (h : runTrace c is s = .next u) : P u := by
  induction is generalizing s with
  | nil => cases h; exact hs
  | cons i is ih =>
    obtain ⟨t, ht, hu⟩ := runTrace_cons_next h
    exact ih (hstep i s t hs ht) hu

/-- A trace in two parts is the first part, then the second. -/
theorem runTrace_append {c : Config} {is js : List Instr} {s u : State} (h : runTrace c is s = .next u) :
    runTrace c (is ++ js) s = runTrace c js u := by
  induction is generalizing s with
  | nil => cases h; rfl
  | cons i is ih =>
    obtain ⟨t, ht, hu⟩ := runTrace_cons_next h
    rw [List.cons_append, runTrace_cons ht, ih hu]

/-- Inversion of a trace in two parts that completes. -/
theorem runTrace_append_next {c : Config} {is js : List Instr} {s t : State} (h : runTrace c (is ++ js) s = .next t) :
    ∃ u, runTrace c is s = .next u ∧ runTrace c js u = .next t := by
  induction is generalizing s with
  | nil => exact ⟨s, rfl, h⟩
  | cons i is ih =>
    obtain ⟨r, hr, hrest⟩ := runTrace_cons_next h
    obtain ⟨u, hu, ht⟩ := ih hrest
    exact ⟨u, by rw [runTrace_cons hr, hu], ht⟩

/-- A trace only adds results. -/
theorem runTrace_results {c : Config} {is : List Instr} {s t : State} (h : runTrace c is s = .next t) :
    ∃ new, t.results = s.results ++ new := by
  refine runTrace_keeps (P := fun u => ∃ new, u.results = s.results ++ new) ?_ is ⟨[], by simp⟩ h
  rintro i u v ⟨new, hu⟩ hv
  obtain ⟨-, hr | ⟨r, hr⟩⟩ := execWith_frame hv
  · exact ⟨new, by rw [hr, hu]⟩
  · exact ⟨new ++ [r], by rw [hr, hu, List.append_assoc]⟩

/-- What an operation that ran a detent did to `LAST_TS` and `COUNT`. -/
theorem execWith_ranDetent {c : Config} {i : Instr} {s t : State} {d : Direction} {now : Word}
    (h : execWith c i s = .next t) (hd : RanDetent i s t d now) :
    t.lastTs = now ∧ t.count = wrapWord (s.count.toInt + detentDelta c s d now) := by
  obtain rfl | ⟨sample, ev, rfl, hev, hres⟩ := hd
  · cases h; exact ⟨rfl, rfl⟩
  · obtain ⟨_, he⟩ | ⟨_, e, _, he⟩ | ⟨_, _, he⟩ := execWith_edge_cases c sample now s <;> rw [he] at h <;> cases h
    · simp at hres
    · obtain ⟨hn, -, -⟩ | ⟨d', hd', hl, hc⟩ := edgeWithEntry_cases c e now s <;>
        rw [edgeWithEntry_results, List.append_cancel_left_eq, List.cons.injEq, Result.event.injEq] at hres <;>
        obtain ⟨rfl, -⟩ := hres
      · rw [hn] at hev; cases hev
      · rw [hd'] at hev; cases hev; exact ⟨hl, hc⟩

/-- An operation that ran no detent left `LAST_TS` alone (R107). -/
theorem execWith_ranNoDetent {c : Config} {i : Instr} {s t : State} {new : List Result} (h : execWith c i s = .next t)
    (hres : t.results = s.results ++ new) (hn : RanNoDetent [i] new) : t.lastTs = s.lastTs := by
  obtain ⟨hi, hcw, hccw⟩ := hn
  cases i with
  | edge sample now =>
    obtain ⟨_, he⟩ | ⟨_, e, _, he⟩ | ⟨_, _, he⟩ := execWith_edge_cases c sample now s <;> rw [he] at h <;> cases h
    · rfl
    · obtain ⟨-, -, hl⟩ | ⟨d, hd, -, -⟩ := edgeWithEntry_cases c e now s
      · exact hl
      · rw [edgeWithEntry_results, List.append_cancel_left_eq] at hres
        subst hres
        cases hev : entryEvent e <;> simp [hev, eventCount, eventDirection] at hcw hccw hd
  | setMult m =>
    cases hm : multOperandValue c m with
    | none => rw [execWith_setMult_none hm] at h; cases h; rfl
    | some q => rw [execWith_setMult_some hm] at h; cases h; rfl
  | init =>
    cases ha : s.armed with
    | false => rw [execWith_init_first c ha] at h; cases h; rfl
    | true => rw [execWith_init_again c ha] at h; cases h; rfl
  | drain => cases h; rfl
  | setVs en => cases h; rfl
  | inject v => cases h; rfl
  | detent d now => simp [isDetent] at hi
  | reserved => cases h; rfl

/-- A trace that ran no detent left `LAST_TS` alone (R107). -/
theorem runTrace_ranNoDetent {c : Config} {is : List Instr} {s t : State} {new : List Result} (h : runTrace c is s = .next t)
    (hres : t.results = s.results ++ new) (hn : RanNoDetent is new) : t.lastTs = s.lastTs := by
  induction is generalizing s new with
  | nil => cases h; rfl
  | cons i is ih =>
    obtain ⟨u, hu, ht⟩ := runTrace_cons_next h
    obtain ⟨a, ha⟩ := runTrace_results (runTrace_cons (is := []) hu)
    obtain ⟨b, hb⟩ := runTrace_results ht
    rw [hb, ha, List.append_assoc, List.append_cancel_left_eq] at hres
    subst hres
    simp only [RanNoDetent, List.forall_mem_cons, eventCount, List.count_append, Nat.add_eq_zero_iff] at hn
    obtain ⟨⟨hi, his⟩, ⟨hcwa, hcwb⟩, hccwa, hccwb⟩ := hn
    rw [ih ht hb ⟨his, hcwb, hccwb⟩]
    exact execWith_ranNoDetent hu ha ⟨by simpa using hi, hcwa, hccwa⟩

/-- No operation is the reserved code (30_encoding.md R71). -/
@[simp] theorem operationInstr_ne_reserved (o : Operation) : operationInstr o ≠ .reserved := by cases o <;> simp [operationInstr]

end Sys2Proof.Machine
end

