-- ==== Sys2Proof/Laws/Accounts.lean ====
section
/-! SUPPORT. The accounts of the conservation law: how they add up over results, and what each operation does to them. -/

namespace Sys2Proof.Machine

@[simp] theorem drainedSum_append (a b : List Result) : drainedSum (a ++ b) = drainedSum a + drainedSum b := by
  induction a with
  | nil => simp [drainedSum]
  | cons r rs ih =>
    cases r <;> simp [drainedSum, ih]
    ring

@[simp] theorem drainedSum_nothing : drainedSum [.nothing] = 0 := rfl
@[simp] theorem drainedSum_event (e : Event) : drainedSum [.event e] = 0 := rfl
@[simp] theorem drainedSum_declined (w : Declined) : drainedSum [.declined w] = 0 := rfl
@[simp] theorem drainedSum_drained (v : Int) : drainedSum [.drained v] = v := by simp [drainedSum]

@[simp] theorem eventCount_append (e : Event) (a b : List Result) : eventCount e (a ++ b) = eventCount e a + eventCount e b :=
  List.count_append

@[simp] theorem injectSum_append (a b : List Instr) : injectSum (a ++ b) = injectSum a + injectSum b := by
  induction a with
  | nil => simp [injectSum]
  | cons i a ih => simp [injectSum, ih]; ring

/-- No addition of a trace in two parts wraps exactly if none of either part does. -/
theorem noWrap_append {c : Config} {is js : List Instr} {s u : State} (h : runTrace c is s = .next u) :
    NoWrap c (is ++ js) s ↔ NoWrap c is s ∧ NoWrap c js u := by
  induction is generalizing s with
  | nil => cases h; simp [NoWrap]
  | cons i is ih =>
    obtain ⟨t, ht, hu⟩ := runTrace_cons_next h
    simp only [List.cons_append, NoWrap, ht, ih hu, and_assoc]

/-- What an `EDGE` adds, from the entry it looks up. -/
theorem turnOf_edge {c : Config} {sample : Sample} {s : State} {e : Byte} (ha : s.armed = true)
    (he : tableEntry c (rowOf s) sample = some e) (now : Word) :
    turnOf c (.edge sample now) s =
      match eventDirection (entryEvent e) with
      | some dir => detentDelta c s dir now
      | none => 0 := by
  cases hd : eventDirection (entryEvent e) <;> simp [turnOf, ha, he, hd]

/-- Every operation but `DRAIN` adds to `COUNT`, modulo 2^32, exactly what it turns or injects. -/
theorem execWith_count {c : Config} {i : Instr} {s t : State} (hd : i ≠ .drain) (h : execWith c i s = .next t) :
    t.count = wrapWord (s.count.toInt + (turnOf c i s + injectOf i)) := by
  have keep : s.count = wrapWord (s.count.toInt + (0 + 0)) := by simp [wrapWord]
  cases i with
  | edge sample now =>
    obtain ⟨ha, he⟩ | ⟨ha, e, hte, he⟩ | ⟨_, _, he⟩ := execWith_edge_cases c sample now s <;> rw [he] at h <;> cases h
    · simpa [turnOf, injectOf, ha] using keep
    · rw [turnOf_edge ha hte, injectOf]
      obtain ⟨hn, hc, _⟩ | ⟨d, hd', _, hc⟩ := edgeWithEntry_cases c e now s
      · rw [hc, hn]; exact keep
      · rw [hc, hd']; simp
  | setMult m =>
    cases hm : multOperandValue c m with
    | none => rw [execWith_setMult_none hm] at h; cases h; exact keep
    | some q => rw [execWith_setMult_some hm] at h; cases h; exact keep
  | init =>
    cases ha : s.armed with
    | false => rw [execWith_init_first c ha] at h; cases h; exact keep
    | true => rw [execWith_init_again c ha] at h; cases h; exact keep
  | detent d now => cases h; simp [turnOf, injectOf]
  | inject v => cases h; simp [turnOf, injectOf]
  | drain => exact absurd rfl hd
  | setVs en => cases h; exact keep
  | reserved => cases h; exact keep

end Sys2Proof.Machine
end

