-- ==== Sys2Proof/Laws/Decode.lean ====
section
/-! SUPPORT. The fields of a word made by appending an argument to an op code. -/

namespace Sys2Proof

/-- The op code of such a word. -/
theorem opCode_append {n : Nat} (x : BitVec n) (k : BitVec 3) (h : n ≤ 34) : opCode ((x ++ k).setWidth 37) = k := by
  apply BitVec.eq_of_getLsbD_eq
  intro i hi
  simp [opCode, BitVec.getElem_append, hi, show i < 37 by omega, show i < n + 3 by omega]

/-- Bit `i` of `ARG` of such a word. -/
theorem getLsbD_append_op {n : Nat} (x : BitVec n) (k : BitVec 3) (i : Nat) :
    ((x ++ k).setWidth 37).getLsbD (3 + i) = (decide (i < 34) && x.getLsbD i) := by
  rw [BitVec.getLsbD_setWidth, BitVec.getLsbD_append]
  simp [show 3 + i < 37 ↔ i < 34 by omega]

/-- A field of `ARG` of such a word. -/
theorem extractLsb'_append_op {n len : Nat} (x : BitVec n) (k : BitVec 3) (start : Nat) (h : start + len ≤ 34) :
    ((x ++ k).setWidth 37).extractLsb' (3 + start) len = x.extractLsb' start len := by
  apply BitVec.eq_of_getLsbD_eq
  intro i hi
  rw [BitVec.getLsbD_extractLsb', BitVec.getLsbD_extractLsb', Nat.add_assoc, getLsbD_append_op]
  simp [hi, show start + i < 34 by omega]

end Sys2Proof
end

