-- ==== Sys2Proof/Laws/PerInstr.lean ====
section
/-! SUPPORT. The family of per-instruction statements: the word of each instruction carries the op code of its row of
spec/opcode_table.json. -/

namespace Sys2Proof.Laws.OpCodeRow

/-- The `match` value of an instruction's row (30_encoding.md R69). -/
def rowNumber : Instr → Nat
  | .edge _ _ => 0
  | .drain => 1
  | .setVs _ => 2
  | .setMult _ => 3
  | .inject _ => 4
  | .init => 5
  | .detent _ _ => 6
  | .reserved => 7

/-- Where the instruction has a word, its op code is that of the instruction's row. -/
def Statement (i : Instr) : Prop := ∀ w, encode i = some w → (opCode w).toNat = rowNumber i

theorem edge (sample : Sample) (now : Word) : Statement (.edge sample now) := by
  rintro w ⟨⟩
  rw [opCode_append _ _ (by omega)]; rfl

theorem drain : Statement .drain := by
  rintro w ⟨⟩; rfl

theorem setVs (en : Bool) : Statement (.setVs en) := by
  rintro w ⟨⟩
  rw [opCode_append _ _ (by omega)]; rfl

theorem setMult (m : MultOperand) : Statement (.setMult m) := by
  cases m with
  | word bits =>
    rintro w ⟨⟩
    rw [opCode_append _ _ (by omega)]; rfl
  | value q => rintro w ⟨⟩

theorem inject (v : Word) : Statement (.inject v) := by
  rintro w ⟨⟩
  rw [opCode_append _ _ (by omega)]; rfl

theorem init : Statement .init := by
  rintro w ⟨⟩; rfl

theorem detent (dir : Direction) (now : Word) : Statement (.detent dir now) := by
  rintro w ⟨⟩
  rw [opCode_append _ _ (by omega)]; rfl

theorem reserved : Statement .reserved := by
  rintro w ⟨⟩; rfl

end Sys2Proof.Laws.OpCodeRow
end

