-- ==== Sys2Proof/Machine/TraceText.lean ====
section
/-! DEFINITION. The trace syntax (30_encoding.md R73): one operation a line, what follows the arrow being its result. -/

namespace Sys2Proof.Machine

def eventText : Event → String
  | .none => "none"
  | .cw => "CW"
  | .ccw => "CCW"

def directionText : Direction → String
  | .cw => "CW"
  | .ccw => "CCW"

/-- A rational number, as an integer or a fraction. -/
def rationalText (q : Rat) : String :=
  if q.den = 1 then toString q.num else toString q.num ++ "/" ++ toString q.den

/-- The multiplier as a number, or that the bits are none. -/
def multOperandText (m : MultOperand) : String :=
  match multOperandValue built m with
  | some q => rationalText q
  | none => "NaN"

/-- The line of an operation. -/
def operationText : Instr → String
  | .edge sample now => "EDGE s=" ++ toString sample.toNat ++ " t=" ++ toString now.toNat
  | .drain => "DRAIN"
  | .setVs en => "SET_VS " ++ (if en then "1" else "0")
  | .setMult m => "SET_MULT " ++ multOperandText m
  | .inject v => "INJECT " ++ toString v.toInt
  | .init => "INIT"
  | .detent dir now => "DETENT dir=" ++ directionText dir ++ " t=" ++ toString now.toNat
  | .reserved => "reserved"

/-- The optional prefix that shows the issuing context. -/
def contextText (i : Instr) : String :=
  match issuer i with
  | some .irq => "IRQ: "
  | some .poll => "POLL: "
  | none => ""

/-- What follows an operation on its line. -/
def resultText : Result → String
  | .nothing => ""
  | .event e => " -> " ++ eventText e
  | .drained v => " -> " ++ toString v
  | .declined _ => " refused"

end Sys2Proof.Machine
end

