-- ==== Sys2Proof/Tests/Slice0.lean ====
section
/-! SUPPORT. Tests, each about one step or one small trace on a small state, with expected results from the spec
(95_test_vectors.md, named in each test), and a witness for the hypotheses of each statement that has some. -/

namespace Sys2Proof.Tests

set_option Elab.async false

open Sys2Proof Sys2Proof.Machine

/-! ### Helpers -/

/-- An armed state: `STATE`, `COUNT`, `LAST_TS`; otherwise as after reset. -/
def st (stateReg : Byte) (count : Int) (lastTs : Nat) : State :=
  { State.reset with stateReg := stateReg, count := BitVec.ofInt 32 count, lastTs := BitVec.ofNat 32 lastTs, armed := true }

/-- The next state an answer holds, the reset state where it holds none. -/
def nextOf (o : Host.Outcome State Fault Refusal) : State :=
  match o with
  | .next s => s
  | .fault _ => State.reset
  | .refused _ => State.reset

/-- The answer is this next state. -/
def isNext (o : Host.Outcome State Fault Refusal) (t : State) : Bool :=
  match o with
  | .next s => s == t
  | .fault _ => false
  | .refused _ => false

theorem of_isNext {o : Host.Outcome State Fault Refusal} {t : State} (h : isNext o t = true) : o = .next t := by
  cases o with
  | next s => rw [eq_of_beq h]
  | fault _ => cases h
  | refused _ => cases h

/-- A trace of edges, all at time 0, from a state. -/
def edges (m : Mode) (samples : List Sample) (s : State) : State :=
  nextOf (runTrace (configOf m) (samples.map fun x => .edge x 0#32) s)

/-! ### Well-formedness -/

/-- A multiplier given as a rational number has no command word (R70). -/
theorem test_wf_refuses_rational_multiplier :
    (Instr.setMult (.value (1 / 3))).wf = false ∧ encode (.setMult (.value (1 / 3))) = none := by decide +kernel

/-- A table with a row too few is not admitted (R66 (a)). -/
theorem test_wf_refuses_short_table : ({ built with table := halfTable.drop 1 } : Config).tableWf = false := by decide

/-- A table with an entry that names row 6 of 6 is not admitted (R66 (c)). -/
theorem test_wf_refuses_out_of_range_entry :
    ({ built with table := halfTable.set 0 ⟨0x06#8, 0x02#8, 0x01#8, 0x00#8⟩ } : Config).tableWf = false := by decide

/-- A high nibble of 3 is not tidy (R66). -/
theorem test_tidy_refuses_nibble_three :
    ({ built with table := halfTable.set 0 ⟨0x33#8, 0x02#8, 0x01#8, 0x00#8⟩ } : Config).tableTidy = false := by decide

/-! ### Decoding: words of 95_test_vectors.md section 4, and words written out bit by bit from R69 -/

theorem test_decode_edge : decode 0b00000000000000000000001111101000_01_000#37 = .edge 1#2 1000#32 := by decide
theorem test_decode_edge_last : decode 0x1FFFFFFFF8#37 = .edge 3#2 0xFFFFFFFF#32 := by decide
theorem test_decode_drain_ignores_unused_bits :
    decode 0b1111111111111111111111111111111111_001#37 = .drain := by decide
theorem test_decode_set_vs : decode 0b0000000000000000000000000000000001_010#37 = .setVs true := by decide
theorem test_decode_set_vs_ignores_unused_bits :
    decode 0b1111111111111111111111111111111110_010#37 = .setVs false := by decide
theorem test_decode_set_mult :
    decode 0b00_01000000001000000000000000000000_011#37 = .setMult (.word 0x40200000#32) := by decide
theorem test_decode_inject : decode 0x07FFFFFFB4#37 = .inject (BitVec.ofInt 32 (-10)) := by decide
theorem test_decode_inject_ignores_unused_bits :
    decode 0b11_00000000000000000000000000000101_100#37 = .inject 5#32 := by decide
theorem test_decode_init : decode 0b0000000000000000000000000000000000_101#37 = .init := by decide
theorem test_decode_detent_cw : decode 0x00011344C6#37 = .detent .cw 1127500#32 := by decide
theorem test_decode_detent_ccw :
    decode 0b0_00000000000000000001001110001000_1_110#37 = .detent .ccw 5000#32 := by decide
theorem test_decode_reserved : decode 0b1000000000000000000000000000000000_111#37 = .reserved := by decide
theorem test_decode_rejects_wide_number : decodeNumber (2 ^ 37) = .error .tooWide ∧ decodeTableWord 40 (2 ^ 37) = none := by
  decide
theorem test_encode_edge : encode (.edge 1#2 1000#32) = some 0x0000007D08#37 := by decide
theorem test_encode_set_mult : encode (.setMult (.word 0x40200000#32)) = some 0x0201000003#37 := by decide
theorem test_encode_detent : encode (.detent .ccw 5000#32) = some 0x000001388E#37 := by decide

/-! ### Operands -/

/-- R60: B high and A low is sample 2. -/
theorem test_sample_of_pins : sampleOfPins false true = 2#2 ∧ sampleOfPins true false = 1#2 := by decide
/-- Section 4: 5/2 is 0x40200000 and -1 is 0xBF800000. -/
theorem test_binary32_normal : binary32 0x40200000#32 = some (5 / 2) ∧ binary32 0xBF800000#32 = some (-1) := by
  decide +kernel
/-- R70: both zeros denote 0; K11, K12: NaN and infinity denote nothing. -/
theorem test_binary32_corners : binary32 0x80000000#32 = some 0 ∧ binary32 0x00000000#32 = some 0 ∧
    binary32 0x7FC00000#32 = none ∧ binary32 0x7F800000#32 = none := by decide +kernel

/-! ### EDGE (40_decoder.md R81; T1, T2, T3 of 95_test_vectors.md) -/

/-- R81's example: row 2, sample 0 reads 0x13, which is CW; the interval is 5 ms. -/
theorem test_edge_emits_cw :
    isNext (exec (.edge 0#2 5000#32) (st 0x02#8 0 0))
      { st 0x13#8 10 5000 with results := [.event .cw] } = true := by decide +kernel

/-- T1: from 0x13 the CW bit does not matter, and sample 2 leads to 0x04 without an event. -/
theorem test_edge_ignores_direction_bits :
    isNext (exec (.edge 2#2 9000#32) (st 0x13#8 3 5000)) { st 0x04#8 3 5000 with results := [.event .none] } = true := by
  decide +kernel

/-- T1 and T2, all entries: the two tables as R63 and R64 print them. -/
theorem test_tables : flatTable (configOf .half) =
      [0x03#8, 0x02#8, 0x01#8, 0x00#8, 0x23#8, 0x00#8, 0x01#8, 0x00#8, 0x13#8, 0x02#8, 0x00#8, 0x00#8] ++
      [0x03#8, 0x05#8, 0x04#8, 0x00#8, 0x03#8, 0x03#8, 0x04#8, 0x10#8, 0x03#8, 0x05#8, 0x03#8, 0x20#8] ∧
    flatTable (configOf .full) =
      [0x00#8, 0x02#8, 0x04#8, 0x00#8, 0x03#8, 0x00#8, 0x01#8, 0x10#8, 0x03#8, 0x02#8, 0x00#8, 0x00#8, 0x03#8, 0x02#8] ++
      [0x01#8, 0x00#8, 0x06#8, 0x00#8, 0x04#8, 0x00#8, 0x06#8, 0x05#8, 0x00#8, 0x20#8, 0x06#8, 0x05#8, 0x04#8, 0x00#8] := by
  decide

/-- Q5: bounce on both sides of the first event gives two CW events in all. -/
theorem test_bounce : (edges .half [1#2, 3#2, 1#2, 3#2, 1#2, 0#2, 1#2, 0#2, 2#2, 3#2] { st 0x00#8 0 0 with vsEn := false }).count
    = 2#32 := by decide +kernel

/-- Q7 and Q8: half a click forward and back. -/
theorem test_reversal : (edges .half [1#2, 0#2, 1#2, 3#2] { st 0x00#8 0 0 with vsEn := false }).results =
      [.event .none, .event .cw, .event .none, .event .ccw] ∧
    (edges .full [1#2, 0#2, 1#2, 3#2] { st 0x00#8 0 0 with vsEn := false }).results =
      [.event .none, .event .none, .event .none, .event .none] := by decide +kernel

/-- K15: before `INIT` an `EDGE` does not occur. -/
theorem test_edge_before_init : isNext (exec (.edge 1#2 0#32) State.reset) State.reset = true := by decide +kernel

/-! ### The accumulator (V, M, W, K vectors) -/

/-- V9: the decrement tie at 12.5 ms rounds up to 49; V18: 200 ms gives 3 and 11. -/
theorem test_steps_at_multiplier_one : variableStep built .ccw 12500 1 = 49 ∧ variableStep built .cw 12500 1 = 10 ∧
    variableStep built .cw 200000 1 = 3 ∧ variableStep built .ccw 200000 1 = 11 := by decide +kernel

/-- V10, V11: the last tick with CW step 10 and the first with 9; V19, V20: 2 and 1. -/
theorem test_step_changes_at_the_tick : variableStep built .cw 18611 1 = 10 ∧ variableStep built .cw 18612 1 = 9 ∧
    variableStep built .cw 236388 1 = 2 ∧ variableStep built .cw 236389 1 = 1 := by decide +kernel

/-- M5, M11, M12, M16: clamp before rounding, the upper clamp, ties, a negative multiplier. -/
theorem test_steps_with_multipliers : variableStep built .cw 250000 (1 / 2) = 1 ∧ variableStep built .ccw 5000 3 = 100 ∧
    variableStep built .cw 127500 3 = 17 ∧ variableStep built .ccw 127500 3 = 77 ∧ variableStep built .ccw 5000 (-1) = 1 := by
  decide +kernel

/-- W1: the interval across the wrap; W4: one tick back. -/
theorem test_interval_wraps : dtTicks (st 0#8 0 0xFFFFF000) 0x00000388#32 = 5000 ∧ dtTicks (st 0#8 0 5000) 4999#32 = 4294967295 := by
  decide

/-- K17: 127.5 ms gives step 6. -/
theorem test_detent_midpoint : isNext (exec (.detent .cw 1127500#32) (st 0#8 0 1000000))
    { st 0#8 6 1127500 with results := [.nothing] } = true := by decide +kernel

/-- K6: the counter wraps; K8: it wraps downwards. -/
theorem test_detent_wraps :
    (nextOf (exec (.detent .cw 1#32) { st 0#8 2147483647 0 with vsEn := false })).count.toInt = -2147483648 ∧
      (nextOf (exec (.detent .ccw 0#32) (st 0#8 (-2147483600) 0))).count.toInt = 2147483646 := by decide +kernel

/-- K9. -/
theorem test_set_vs : isNext (exec (.setVs false) (st 0x13#8 7 9)) { st 0x13#8 7 9 with vsEn := false, results := [.nothing] } = true := by
  decide +kernel

/-- K10, by the word and by the number; 1/10 of M18 has no binary32 word. -/
theorem test_set_mult : (nextOf (exec (.setMult (.word 0x40200000#32)) (st 0#8 0 0))).mult = 5 / 2 ∧
    (nextOf (exec (.setMult (.value (1 / 10))) (st 0#8 0 0))).mult = 1 / 10 := by decide +kernel

/-- K11: NaN is refused and `MULT` stays 2. -/
theorem test_set_mult_nan : isNext (exec (.setMult (.word 0x7FC00000#32)) { st 0#8 0 0 with mult := 2 })
    { st 0#8 0 0 with mult := 2, results := [.declined .notANumber] } = true := by decide +kernel

/-- G1 to G4: the counts of one CW detent with a 5 ms interval around the two stores. -/
theorem test_configure_orders :
    let s := { st 0#8 0 0 with vsEn := false }
    let run := fun is => (nextOf (runTrace built is s)).count
    let d := Instr.detent .cw 5000#32
    run [d, .setVs true, .setMult (.value 2)] = 1#32 ∧ run [.setVs true, d, .setMult (.value 2)] = 10#32 ∧
      run [.setMult (.value 2), d, .setVs true] = 1#32 ∧ run [.setVs true, .setMult (.value 2), d] = 20#32 := by
  decide +kernel

/-! ### The drain, initialisation, the reserved code -/

/-- K2 and K3. -/
theorem test_drain : isNext (exec .drain (st 0x20#8 (-7) 9)) { st 0x20#8 0 9 with results := [.drained (-7)] } = true ∧
    (nextOf (exec .drain (st 0x20#8 0 9))).results = [.drained 0] := by decide +kernel

/-- K4 and K7. -/
theorem test_inject :
    isNext (exec (.inject (BitVec.ofInt 32 (-10))) (st 0x13#8 3 9)) { st 0x13#8 (-7) 9 with results := [.nothing] } = true ∧
      (nextOf (exec (.inject (BitVec.ofInt 32 (-1))) (st 0#8 (-2147483648) 0))).count.toInt = 2147483647 := by decide +kernel

/-- K13 and K14. -/
theorem test_init : isNext (exec .init State.reset) { State.reset with armed := true, results := [.nothing] } = true ∧
    isNext (exec .init (st 0x13#8 3 9)) { st 0x13#8 3 9 with results := [.declined .secondInit] } = true := by decide +kernel

/-- K16. -/
theorem test_reserved : isNext (exec .reserved (st 0x13#8 3 9)) { st 0x13#8 3 9 with results := [.declined .reservedOpCode] } = true := by
  decide +kernel

/-- X1's allowed orders: `DRAIN` then `EDGE` returns 2 and leaves 1, `EDGE` then `DRAIN` returns 3 and leaves 0. -/
theorem test_drain_and_edge_in_both_orders :
    let s := { st 0x02#8 2 0 with vsEn := false }
    let a := nextOf (runTrace built [.drain, .edge 0#2 1#32] s)
    let b := nextOf (runTrace built [.edge 0#2 1#32, .drain] s)
    drainedSum a.results = 2 ∧ a.count = 1#32 ∧ drainedSum b.results = 3 ∧ b.count = 0#32 := by decide +kernel

/-- A step runs an issued word: the first row of P1. -/
theorem test_step_runs_issued_word :
    isNext (step (State.reset.withFetchWord 40 5)) { State.reset with armed := true, results := [.nothing] } = true := by
  decide +kernel

/-- R73: lines of P2. -/
theorem test_trace_text : contextText .init ++ operationText .init = "POLL: INIT" ∧
    operationText (.edge 0#2 300000#32) ++ resultText (.event .cw) = "EDGE s=0 t=300000 -> CW" ∧
    operationText .drain ++ resultText (.drained (-146)) = "DRAIN -> -146" ∧
    operationText (.setMult (.word 0x40200000#32)) = "SET_MULT 5/2" := by decide +kernel

/-! ### Witnesses: a concrete state and operands that meet the hypotheses of each statement together -/

theorem witness_DecodeOfEncode : (Instr.detent .ccw 5000#32).wf = true ∧ (Instr.setMult (.word 0x7FC00000#32)).wf = true := by decide

/-- A word for each clause at the ends of its range of exponents. -/
theorem witness_MultiplierWords : (0xFF800001#32).extractLsb' 23 8 = 255#8 ∧ (0x80000001#32).extractLsb' 23 8 = 0#8 ∧
    (0x00800000#32).extractLsb' 23 8 = 1#8 ∧ (0x3F7FFFFF#32).extractLsb' 23 8 = 126#8 ∧
    (0x3F800000#32).extractLsb' 23 8 = 127#8 ∧ (0x7F7FFFFF#32).extractLsb' 23 8 = 254#8 := by decide

theorem witness_StepPerforms : (State.reset.withFetchWord 40 5).pending = .word 5#37 :: [] ∧
    (setPending State.reset [.op .drain, .op .init]).pending = .op .drain :: [.op .init] ∧ State.reset.pending = [] := by decide +kernel

theorem witness_IssuedWord : decodeTableWord 40 5 = some .init ∧ decodeTableWord 40 0x1FFFFFFFF8 = some (.edge 3#2 0xFFFFFFFF#32) := by
  decide

theorem witness_EveryStepKeepsTheInvariant :
    let s := setPending (st 0x02#8 0 0) [.op (.edge 0#2 5000#32)]
    let t := { st 0x13#8 10 5000 with results := [.event .cw] }
    built.tableWf = true ∧ built.tableTidy = true ∧ RegInv built s ∧ stepWith built s = .next t ∧ step s = .next t :=
  ⟨by decide, by decide, by decide, of_isNext (by decide +kernel), of_isNext (by decide +kernel)⟩

theorem witness_NoStepFails : RegInv built (st 0x25#8 0 0) ∧ (configOf .full).tableWf = true ∧
    rowOf (st 0x06#8 0 0) < (configOf .full).mode.rows := by decide

/-- The last row that exists, the rule's example, and before `INIT`. -/
theorem witness_EdgeLooksUp : (st 0x25#8 0 0).armed = true ∧ ((st 0x25#8 0 0).stateReg.extractLsb' 0 4).toNat < 6 ∧
    (st 0x02#8 0 0).armed = true ∧ (st 0x02#8 0 0).stateReg = 0x02#8 ∧
    State.reset.armed = false ∧ tableEntry built ((st 0x25#8 0 0).stateReg.extractLsb' 0 4).toNat 3#2 = some 0x20#8 := by decide

/-- The last row of each table. -/
theorem witness_EdgeStores : (st 0x25#8 0 0).armed = true ∧ rowOf (st 0x25#8 0 0) < 6 ∧ rowOf (st 0x06#8 0 0) < 7 := by decide

/-- The first row that does not exist. -/
theorem witness_EdgeOutsideTheTable : (st 0x06#8 0 0).armed = true ∧ 6 ≤ rowOf (st 0x06#8 0 0) := by decide

theorem witness_DecoderReads :
    let s1 := st 0x13#8 3 9
    let s2 := { st 0x23#8 5 1 with vsEn := false }
    s1.armed = true ∧ s2.armed = true ∧ s1.stateReg.extractLsb' 0 4 = s2.stateReg.extractLsb' 0 4 ∧
      execWith built (.edge 1#2 7#32) s1 = .next { st 0x05#8 3 9 with results := [.event .none] } ∧
      execWith built (.edge 1#2 8#32) s2 = .next { st 0x05#8 5 1 with vsEn := false, results := [.event .none] } :=
  ⟨rfl, rfl, by decide, of_isNext (by decide +kernel), of_isNext (by decide +kernel)⟩

theorem witness_BothTables : (5 : Nat) < Mode.half.rows ∧ Mode.half.rows ≤ 6 ∧ 6 < Mode.full.rows ∧ Mode.full.rows ≤ 7 := by decide

theorem witness_FlatTable : 5 < built.table.length := by decide

theorem witness_RowsAreEntered : (st 0x03#8 0 0).armed = true ∧ rowOf (st 0x03#8 0 0) < Mode.half.rows ∧
    execWith (configOf .half) (.edge 2#2 7#32) (st 0x03#8 0 0) = .next { st 0x04#8 0 0 with results := [.event .none] } ∧
    rowOf (st 0x03#8 0 0) < Mode.full.rows ∧
    execWith (configOf .full) (.edge 2#2 7#32) (st 0x03#8 0 0) = .next { st 0x01#8 0 0 with results := [.event .none] } :=
  ⟨rfl, by decide, of_isNext (by decide +kernel), by decide, of_isNext (by decide +kernel)⟩

theorem witness_SampleThree : (st 0x06#8 0 0).armed = true ∧ rowOf (st 0x06#8 0 0) < Mode.full.rows := by decide

/-- A fall-back case: row 0 entered on sample 1 goes to row 2. -/
theorem witness_RepeatedSample :
    let u := { st 0x00#8 0 0 with vsEn := false, results := [.event .none, .nothing] }
    (st 0x01#8 0 0).armed = true ∧ rowOf (st 0x01#8 0 0) < Mode.half.rows ∧ (∀ i ∈ [Instr.setVs false], isEdge i = false) ∧
      runTrace (configOf .half) (.edge 1#2 7#32 :: [.setVs false]) (st 0x01#8 0 0) = .next u ∧
      execWith (configOf .half) (.edge 1#2 8#32) u =
        .next { st 0x02#8 0 0 with vsEn := false, results := [.event .none, .nothing, .event .none] } :=
  ⟨rfl, by decide, by decide, of_isNext (by decide +kernel), of_isNext (by decide +kernel)⟩

/-- A double transition, and a first edge in row 0. -/
theorem witness_OnlyASingleChannelChange :
    let u := { st 0x02#8 0 0 with results := [.event .none, .drained 0] }
    (st 0x00#8 0 0).armed = true ∧ rowOf (st 0x00#8 0 0) < Mode.half.rows ∧ (∀ i ∈ [Instr.drain], isEdge i = false) ∧
      runTrace (configOf .half) (.edge 1#2 7#32 :: [.drain]) (st 0x00#8 0 0) = .next u ∧
      execWith (configOf .half) (.edge 2#2 8#32) u =
        .next { st 0x00#8 0 0 with results := [.event .none, .drained 0, .event .none] } ∧
      (2#2 : Sample) = 1#2 ^^^ 3#2 ∧ rowOf (st 0x00#8 0 0) = 0 ∧
      execWith (configOf .half) (.edge 1#2 7#32) (st 0x00#8 0 0) = .next { st 0x02#8 0 0 with results := [.event .none] } :=
  ⟨rfl, by decide, by decide, of_isNext (by decide +kernel), of_isNext (by decide +kernel), by decide, by decide,
    of_isNext (by decide +kernel)⟩

theorem witness_IdealTurns : (st 0x10#8 0 0).armed = true ∧ rowOf (st 0x10#8 0 0) = 0 := by decide

theorem witness_DirectionBits : rowOf (st 0x13#8 4 9) = rowOf (st 0x23#8 4 9) ∧
    st 0x23#8 4 9 = { st 0x13#8 4 9 with stateReg := (st 0x23#8 4 9).stateReg } ∧
    runTrace built [.edge 1#2 7#32] (st 0x13#8 4 9) = .next { st 0x05#8 4 9 with results := [.event .none] } ∧
    rowOf (st 0x06#8 0 0) = rowOf (st 0x16#8 0 0) ∧
    runTrace built [.edge 1#2 7#32] (st 0x06#8 0 0) = .fault .rowOutOfRange :=
  ⟨by decide, rfl, of_isNext (by decide +kernel), by decide, rfl⟩

/-- Where both tables hold the same entry, and an operation that is no `EDGE`. -/
theorem witness_ModesDifferOnly :
    configOf .full = { configOf .half with mode := (configOf .full).mode, table := (configOf .full).table } ∧
      tableEntry (configOf .half) (rowOf (st 0x03#8 0 0)) 3#2 = tableEntry (configOf .full) (rowOf (st 0x03#8 0 0)) 3#2 ∧
      isEdge (.detent .cw 5#32) = false := ⟨rfl, by decide, rfl⟩

/-- A detent, an edge that emits, one that does not, and another operation. -/
theorem witness_LastTs :
    execWith built (.detent .cw 5#32) (st 0#8 0 0) = .next { st 0#8 10 5 with results := [.nothing] } ∧
      execWith built (.edge 0#2 5#32) (st 0x02#8 0 0) = .next { st 0x13#8 10 5 with results := [.event .cw] } ∧
      execWith built (.edge 1#2 5#32) (st 0x02#8 0 0) = .next { st 0x02#8 0 0 with results := [.event .none] } ∧
      execWith built .drain (st 0x02#8 3 9) = .next { st 0x02#8 0 9 with results := [.drained 3] } :=
  ⟨of_isNext (by decide +kernel), of_isNext (by decide +kernel), of_isNext (by decide +kernel), of_isNext (by decide +kernel)⟩

theorem witness_StepIsOne : ({ st 0#8 0 0 with vsEn := false } : State).vsEn = false ∧ (st 0#8 0 0).vsEn = true := by decide

/-- Aliasing (W5), and one tick back (W4). -/
theorem witness_Interval : (4000#32 : Word) = (st 0#8 0 1000).lastTs + BitVec.ofNat 32 (2 ^ 32 + 3000) ∧
    (4999#32 : Word).toNat < (st 0#8 0 5000).lastTs.toNat := by decide

/-- Both thresholds, a point between them, and two ordered intervals. -/
theorem witness_RawStep : incCurve.p1.x < incCurve.p2.x ∧ (5 : Rat) ≤ incCurve.p1.x ∧ incCurve.p2.x ≤ (250 : Rat) ∧
    incCurve.p1.x < (255 / 2 : Rat) ∧ (255 / 2 : Rat) < incCurve.p2.x ∧ (5 : Rat) ≤ 5 ∧ (5 : Rat) ≤ 250 := by decide +kernel

theorem witness_StepIsFromOneToOneHundred :
    execWith (configOf .half) (.detent .ccw 5#32) (st 0#8 0 0) = .next { st 0#8 (-50) 5 with results := [.nothing] } :=
  of_isNext (by decide +kernel)

theorem witness_LongerInterval : 0 ≤ (st 0#8 0 0).mult ∧ dtTicks (st 0#8 0 0) 5000#32 ≤ dtTicks (st 0#8 0 0) 5001#32 := by
  decide +kernel

/-- The three intervals of the statement. -/
theorem witness_DetentsAtTheSourcesIntervals : (st 0#8 0 9).vsEn = true ∧ (st 0#8 0 9).mult = 1 ∧ (st 0#8 0 9).count = 0#32 ∧
    dtTicks (st 0#8 0 9) 5009#32 ≤ 5000 ∧ 250000 ≤ dtTicks (st 0#8 0 9) 250009#32 ∧ dtTicks (st 0#8 0 9) 127509#32 = 127500 := by
  decide +kernel

theorem witness_CornerMultipliers : (st 0#8 0 9).vsEn = true ∧ ({ st 0#8 0 9 with mult := 0 } : State).mult ≤ 0 ∧
    ({ st 0#8 0 9 with mult := 10 } : State).mult = 10 ∧ dtTicks (st 0#8 0 9) 5009#32 ≤ 5000 ∧
    dtTicks (st 0#8 0 9) 205009#32 ≤ 205000 := by decide +kernel

theorem witness_SetVs : opCode 0x0A#37 = 0b010#3 ∧
    exec (.setVs true) (st 0#8 0 9) = .next { st 0#8 0 9 with results := [.nothing] } ∧
    ({ st 0#8 0 9 with results := [.nothing] } : State).vsEn = (st 0#8 0 9).vsEn :=
  ⟨by decide, of_isNext (by decide +kernel), rfl⟩

theorem witness_SetMult : opCode 0x0201000003#37 = 0b011#3 ∧ binary32 0x40200000#32 = some (5 / 2) ∧
    exec (.setMult (.word 0x40200000#32)) (st 0#8 0 9) = .next { st 0#8 0 9 with mult := 5 / 2, results := [.nothing] } :=
  ⟨by decide, by decide +kernel, of_isNext (by decide +kernel)⟩

theorem witness_SetMultOfNoNumber : (0x7F800000#32 : Word).extractLsb' 23 8 = 255#8 ∧
    (0xFFC00000#32 : Word).extractLsb' 23 8 = 255#8 := by decide

theorem witness_Configure : [Instr.setMult (.value 2), .setVs true] ∈ configureOrders true (.value 2) := by decide +kernel

/-- P3 and S12: variable speed is off at the first detent and on again before the second, and an `EDGE` that emits nothing stands
between. -/
theorem witness_TimingBase :
    let s := { st 0x04#8 0 1001000 with vsEn := false }
    let r := { st 0x10#8 1 1101000 with vsEn := false, results := [.event .cw] }
    let u := { st 0x02#8 1 1101000 with results := [.event .cw, .nothing, .event .none] }
    let t := { st 0x13#8 11 1104000 with results := [.event .cw, .nothing, .event .none, .event .cw] }
    execWith built (.edge 3#2 1101000#32) s = .next r ∧ RanDetent (.edge 3#2 1101000#32) s r .cw 1101000#32 ∧
      runTrace built [.setVs true, .edge 1#2 1102000#32] r = .next u ∧ u.results = r.results ++ [.nothing, .event .none] ∧
      RanNoDetent [.setVs true, .edge 1#2 1102000#32] [.nothing, .event .none] ∧
      execWith built (.edge 0#2 1104000#32) u = .next t ∧ RanDetent (.edge 0#2 1104000#32) u t .cw 1104000#32 :=
  ⟨of_isNext (by decide +kernel), .inr ⟨_, .cw, rfl, rfl, rfl⟩, of_isNext (by decide +kernel), rfl, by decide,
    of_isNext (by decide +kernel), .inr ⟨_, .cw, rfl, rfl, rfl⟩⟩

/-- P2's first event, the first detent of a run from reset; and both ranges of the time at their ends. -/
theorem witness_FirstInterval :
    let is := [Instr.init, .edge 1#2 299000#32]
    let u := { st 0x02#8 0 0 with results := [.nothing, .event .none] }
    let t := { st 0x13#8 1 300000 with results := [.nothing, .event .none, .event .cw] }
    runTrace built is State.reset = .next u ∧ RanNoDetent is u.results ∧ u.lastTs = built.tsReset ∧ u.vsEn = true ∧ u.mult = 1 ∧
      exec (.edge 0#2 300000#32) u = .next t ∧ RanDetent (.edge 0#2 300000#32) u t .cw 300000#32 ∧
      250000 ≤ (250000#32 : Word).toNat ∧ (4999#32 : Word).toNat < 5000 :=
  ⟨of_isNext (by decide +kernel), by decide, rfl, rfl, rfl, of_isNext (by decide +kernel), .inr ⟨_, .cw, rfl, rfl, rfl⟩,
    by decide, by decide⟩

theorem witness_DrainOpCode : opCode 0x1FFFFFFFF9#37 = 0b001#3 := by decide

theorem witness_SecondDrain :
    let s := st 0x02#8 5 9
    let u := { st 0x02#8 0 9 with results := [.drained 5] }
    let v := { st 0x00#8 0 9 with results := [.drained 5, .event .none] }
    exec .drain s = .next u ∧ (∀ i ∈ [Instr.edge 3#2 7#32], isDetent i = false ∧ ∀ x, i ≠ .inject x) ∧
      runTrace built [.edge 3#2 7#32] u = .next v ∧ v.results = u.results ++ [.event .none] ∧
      eventCount .cw [.event .none] = 0 ∧ eventCount .ccw [.event .none] = 0 ∧
      exec .drain v = .next { v with results := v.results ++ [.drained 0] } :=
  ⟨of_isNext (by decide +kernel), by simp [isDetent], of_isNext (by decide +kernel), rfl, by decide, by decide,
    of_isNext (by decide +kernel)⟩

theorem witness_CountIsConserved :
    runTrace built [.inject 5#32, .drain] (st 0#8 2 0) = .next { st 0#8 0 0 with results := [.nothing, .drained 7] } ∧
      NoWrap built [.inject 5#32, .drain] (st 0#8 2 0) :=
  ⟨of_isNext (by decide +kernel), ⟨by decide +kernel, ⟨by decide +kernel, trivial⟩⟩⟩

/-- A state a run reaches after `SET_VS 0`, and P1's beginning, from reset. -/
theorem witness_NetCount :
    let s := { st 0x02#8 0 0 with vsEn := false, results := [.nothing, .nothing, .event .none] }
    let is := [Instr.edge 1#2 1000#32, .edge 0#2 2000#32, .drain]
    let t := { st 0x13#8 0 2000 with vsEn := false, results := [.nothing, .nothing, .event .none, .event .cw, .drained 1] }
    s.vsEn = false ∧ (∀ i ∈ is, i ≠ .setVs true ∧ isDetent i = false) ∧
      runTrace (configOf .half) [.edge 0#2 2000#32, .drain] s = .next t ∧
      NoWrap (configOf .half) [.edge 0#2 2000#32, .drain] s ∧
      (∀ i ∈ [Instr.init], isEdge i = false ∧ isDetent i = false) ∧
      runTrace (configOf .half) ([.init] ++ .setVs false :: is) (State.resetOf (configOf .half)) = .next t :=
  ⟨rfl, by decide +kernel, of_isNext (by decide +kernel), ⟨by decide +kernel, ⟨by decide +kernel, trivial⟩⟩, by decide,
    of_isNext (by decide +kernel)⟩

theorem witness_Interleaving :
    let is := [Instr.drain, .edge 0#2 7#32]
    let js := [Instr.edge 0#2 7#32, .drain]
    (∀ i ∈ is, isCounting i = true) ∧ (∀ j ∈ js, isCounting j = true) ∧
      is.filter (fun i => issuer i = some .irq) = js.filter (fun j => issuer j = some .irq) ∧
      is.filter (fun i => issuer i = some .poll) = js.filter (fun j => issuer j = some .poll) ∧
      runTrace built is (st 0x02#8 2 0) = .next { st 0x13#8 10 7 with results := [.drained 2, .event .cw] } :=
  ⟨by decide, by decide, by decide +kernel, by decide +kernel, of_isNext (by decide +kernel)⟩

theorem witness_NoWrapWithin : (st 0#8 0 0).count = 0#32 ∧ [Instr.detent .cw 0#32].length ≤ 21474836 ∧
    ∀ i ∈ [Instr.detent .cw 0#32], ∀ x, i ≠ .inject x := ⟨by decide, by decide, by simp⟩

theorem witness_InitArmsOnce : State.reset.armed = false ∧ (st 0#8 0 0).armed = true := by decide

theorem witness_ReservedOpCode : opCode 0x1000000007#37 = 0b111#3 ∧ Instr.drain ≠ .reserved ∧
    operationInstr .drain = .drain := by decide

/-- An operation of each writer that changes its register. -/
theorem witness_EachRegisterHasItsWriters :
    execWith built (.edge 0#2 7#32) (st 0x02#8 0 0) = .next { st 0x13#8 10 7 with results := [.event .cw] } ∧
      execWith built (.setVs false) (st 0#8 0 0) = .next { st 0#8 0 0 with vsEn := false, results := [.nothing] } ∧
      execWith built (.setMult (.value 3)) (st 0#8 0 0) = .next { st 0#8 0 0 with mult := 3, results := [.nothing] } ∧
      execWith built .init State.reset = .next { State.reset with armed := true, results := [.nothing] } :=
  ⟨of_isNext (by decide +kernel), of_isNext (by decide +kernel), of_isNext (by decide +kernel), of_isNext (by decide +kernel)⟩

theorem witness_ContextsKeep : issuer .drain = some .poll ∧ issuer (.edge 0#2 7#32) = some .irq ∧ issuer .reserved = none ∧
    execWith built .drain (st 0#8 3 0) = .next { st 0#8 0 0 with results := [.drained 3] } ∧
    execWith built (.edge 0#2 7#32) (st 0x02#8 0 0) = .next { st 0x13#8 10 7 with results := [.event .cw] } ∧
    execWith built .reserved (st 0#8 3 0) = .next { st 0#8 3 0 with results := [.declined .reservedOpCode] } :=
  ⟨rfl, rfl, rfl, of_isNext (by decide +kernel), of_isNext (by decide +kernel), of_isNext (by decide +kernel)⟩

/-- A refusal of each kind. -/
theorem witness_RefusedOperations :
    execWith built .reserved (st 0#8 0 0) = .next { st 0#8 0 0 with results := (st 0#8 0 0).results ++ [.declined .reservedOpCode] } ∧
      execWith built .init (st 0#8 0 0) = .next { st 0#8 0 0 with results := (st 0#8 0 0).results ++ [.declined .secondInit] } ∧
      execWith built (.setMult (.word 0x7F800000#32)) (st 0#8 0 0) =
        .next { st 0#8 0 0 with results := (st 0#8 0 0).results ++ [.declined .notANumber] } :=
  ⟨of_isNext (by decide +kernel), of_isNext (by decide +kernel), of_isNext (by decide +kernel)⟩

end Sys2Proof.Tests
end

/-! ### The transition tables (30_encoding.md R66) -/

namespace Sys2Proof.Machine

/-- R66 (a): a table the spec admits has exactly `N` rows. -/
theorem table_length_of_wf {c : Config} (hw : c.tableWf = true) : c.table.length = c.mode.rows := by
  simp only [Config.tableWf, Bool.and_eq_true, beq_iff_eq] at hw
  exact hw.1

/-- There is no entry exactly where there is no row. -/
theorem tableEntry_eq_none_iff (c : Config) (r : Nat) (x : Sample) : tableEntry c r x = none ↔ c.table.length ≤ r := by
  simp [tableEntry]

/-- An entry of a tidy table has the high nibble 0, 1 or 2. -/
theorem highNibble_lt_of_tidy {c : Config} (ht : c.tableTidy = true) {r : Nat} {x : Sample} {e : Byte}
    (he : tableEntry c r x = some e) : (e.extractLsb' 4 4).toNat < 3 := by
  simp only [Config.tableTidy, List.all_eq_true, decide_eq_true_eq] at ht
  obtain ⟨row, hrow, hmem⟩ := tableEntry_some he
  exact ht row hrow e hmem

/-- An armed `EDGE` on an entry of the table completes with the handler's work on that entry (R81). -/
theorem execWith_edge_of_entry {c : Config} {s : State} {x : Sample} {e : Byte} (ha : s.armed = true)
    (he : tableEntry c (rowOf s) x = some e) (now : Word) :
    execWith c (.edge x now) s = .next (edgeWithEntry c e now s) := by
  simp [execWith, execEdgeWith, takeEdgeInterrupt, edgeHandler, ha, he]

/-- The row that a list of samples leads to from row `r`, read off the table alone (R82); `none` where a row is missing. -/
def rowAfter (c : Config) : List Sample → Nat → Option Nat
  | [], r => some r
  | x :: xs, r => (tableEntry c r x).bind fun e => rowAfter c xs (entryNext e)

/-- In an armed state a trace of `EDGE`s completes in the row the table gives for its samples. -/
theorem runTrace_edges_reaches_rowAfter {c : Config} (now : Word) {r : Nat} (samples : List Sample) {s : State}
    (ha : s.armed = true) (hr : rowAfter c samples (rowOf s) = some r) :
    ∃ t, runTrace c (samples.map fun x => .edge x now) s = .next t ∧ rowOf t = r := by
  induction samples generalizing s with
  | nil => exact ⟨s, rfl, Option.some.inj hr⟩
  | cons x xs ih =>
    obtain ⟨e, he, hrest⟩ := Option.bind_eq_some_iff.mp hr
    have hrow : rowOf (edgeWithEntry c e now s) = entryNext e := by simp [rowOf]
    obtain ⟨t, ht, hrt⟩ := ih (s := edgeWithEntry c e now s) (by simp [ha]) (by rw [hrow, hrest])
    exact ⟨t, by rw [List.map_cons, runTrace_cons (execWith_edge_of_entry ha he now), ht], hrt⟩

/-- From reset, `INIT` and then `EDGE`s complete in the row the table gives for the samples from row 0. -/
theorem runTrace_init_edges_reaches_rowAfter {c : Config} (now : Word) {r : Nat} {samples : List Sample}
    (hr : rowAfter c samples 0 = some r) :
    ∃ t, runTrace c (.init :: samples.map fun x => .edge x now) (State.resetOf c) = .next t ∧ rowOf t = r := by
  rw [runTrace_cons (execWith_init_first c rfl)]
  exact runTrace_edges_reaches_rowAfter now samples rfl hr

/-- Samples that lead from row 0 to a row: in half-step mode each half of the click, in full-step mode each direction's turn
through `BEGIN`, `NEXT` and `FINAL` (R63, R64). -/
def samplesTo : Mode → Nat → List Sample
  | .half, 1 => [2#2]
  | .half, 2 => [1#2]
  | .half, 3 => [0#2]
  | .half, 4 => [0#2, 2#2]
  | .half, 5 => [0#2, 1#2]
  | .full, 1 => [1#2, 0#2, 2#2]
  | .full, 2 => [1#2]
  | .full, 3 => [1#2, 0#2]
  | .full, 4 => [2#2]
  | .full, 5 => [2#2, 0#2, 1#2]
  | .full, 6 => [2#2, 0#2]
  | _, _ => []

/-- The samples do lead to the row, in both modes. -/
theorem rowAfter_samplesTo (m : Mode) : ∀ r, r < m.rows → rowAfter (configOf m) (samplesTo m r) 0 = some r := by
  cases m <;> decide

/-- Settles O16: the tables are well-formed and tidy, and `samplesTo` gives the way to each row. -/
theorem bothTablesAreTotalInBoundsAndReachable : Obligations.BothTablesAreTotalInBoundsAndReachable := by
  intro m
  have hlen : (configOf m).table.length = m.rows := table_length_of_wf (configOf_tableWf m)
  refine ⟨hlen, fun r x hr => ?total, fun r x hr => ?outside, fun r hr => ?reachable⟩
  case total =>
    obtain ⟨e, he, hnext⟩ := tableEntry_of_wf (configOf_tableWf m) hr x
    exact ⟨e, he, hnext, highNibble_lt_of_tidy (configOf_tableTidy m) he⟩
  case outside => exact (tableEntry_eq_none_iff _ r x).mpr (hlen.trans_le hr)
  case reachable => exact ⟨samplesTo m r, runTrace_init_edges_reaches_rowAfter 0#32 (rowAfter_samplesTo m r hr)⟩

end Sys2Proof.Machine

/-! ### The decoder (40_decoder.md R81, R82, R92) -/

namespace Sys2Proof.Machine

@[simp] theorem rowOf_edgeWithEntry (c : Config) (e : Byte) (now : Word) (s : State) :
    rowOf (edgeWithEntry c e now s) = entryNext e := by simp [rowOf]

/-- Inversion of an armed `EDGE` that completes: it did the handler's work on the entry of its row and sample (R81). -/
theorem execWith_edge_next {c : Config} {s t : State} {x : Sample} {now : Word} (ha : s.armed = true)
    (h : execWith c (.edge x now) s = .next t) :
    ∃ e, tableEntry c (rowOf s) x = some e ∧ t = edgeWithEntry c e now s := by
  obtain ⟨hna, -⟩ | ⟨-, e, he, hex⟩ | ⟨-, -, hex⟩ := execWith_edge_cases c x now s
  · simp [ha] at hna
  · rw [hex] at h
    cases h
    exact ⟨e, he, rfl⟩
  · rw [hex] at h
    cases h

/-- The pure transition reads the next row and the event off the entry (R82). -/
theorem transition_of_entry {c : Config} {r : Nat} {x : Sample} {e : Byte} (he : tableEntry c r x = some e) :
    transition c r x = some (entryNext e, entryEvent e) := by simp [transition, he]

/-- Settles O14: equal low nibbles and samples fetch the same entry, and the entry alone is stored and gives the event. -/
theorem decoderReadsOnlyRowAndSample : Obligations.DecoderReadsOnlyRowAndSample := by
  intro c s1 s2 t1 t2 x now1 now2 ha1 ha2 hlow h1 h2
  obtain ⟨e, he, rfl⟩ := execWith_edge_next ha1 h1
  obtain ⟨e', he', rfl⟩ := execWith_edge_next ha2 h2
  have hrow : rowOf s1 = rowOf s2 := congrArg BitVec.toNat hlow
  obtain rfl : e = e' := Option.some.inj (by rw [← he, ← he', hrow])
  exact ⟨by simp, entryEvent e, by simp, by simp, by simpa using transition_of_entry he⟩

/-- An `EDGE` reads nothing of the mode and, of the table, only the entry of its row and sample (R81, R92). -/
theorem execWith_edge_congr_entry {c : Config} {m : Mode} {tt : List Row} {x : Sample} {s : State}
    (he : tableEntry { c with mode := m, table := tt } (rowOf s) x = tableEntry c (rowOf s) x) (now : Word) :
    execWith { c with mode := m, table := tt } (.edge x now) s = execWith c (.edge x now) s := by
  have hwork (e : Byte) : edgeWithEntry { c with mode := m, table := tt } e now s = edgeWithEntry c e now s := rfl
  simp only [execWith, execEdgeWith, takeEdgeInterrupt, edgeHandler, he, hwork]

/-- An operation other than `EDGE` reads neither the mode nor the table (R92). -/
theorem execWith_not_edge_congr (c : Config) (m : Mode) (tt : List Row) {i : Instr} (hi : isEdge i = false) (s : State) :
    execWith { c with mode := m, table := tt } i s = execWith c i s := by
  cases i with
  | edge _ _ => simp [isEdge] at hi
  | drain => rfl
  | setVs en => rfl
  | setMult v => rfl
  | inject v => rfl
  | init => rfl
  | detent d now => rfl
  | reserved => rfl

/-- No operation reads the mode (R92). -/
theorem execWith_setMode (c : Config) (m : Mode) (i : Instr) (s : State) :
    execWith { c with mode := m } i s = execWith c i s := by
  cases i with
  | edge x now => exact execWith_edge_congr_entry rfl now
  | _ => exact execWith_not_edge_congr c m c.table rfl s

/-- The instance of a mode is the half-step instance with the mode and its table put in (R6, R92). -/
theorem configOf_eq_half_with (m : Mode) : configOf m = { configOf .half with mode := m, table := tableOf m } := rfl

/-- Settles O24: the two instances share every other constant, and no operation reads the mode, only `EDGE` the table. -/
theorem modesDifferOnlyInTheTable : Obligations.ModesDifferOnlyInTheTable := by
  refine ⟨configOf_eq_half_with, execWith_setMode, fun m i s => ?table, fun c d x now s hd he => ?entry, fun i s hi => ?other⟩
  case table =>
    rw [configOf_eq_half_with m]
    exact (execWith_setMode { configOf .half with table := tableOf m } m i s).symm
  case entry =>
    rw [hd] at he ⊢
    exact (execWith_edge_congr_entry he.symm now).symm
  case other =>
    rw [configOf_eq_half_with .full]
    exact (execWith_not_edge_congr (configOf .half) .full (tableOf .full) hi s).symm

end Sys2Proof.Machine

/-! ### The accumulator: the timing base (41_accumulator.md R107) -/

namespace Sys2Proof.Machine

/-- Only an `EDGE` and a `DETENT` write `LAST_TS` (R107). -/
theorem execWith_keeps_lastTs {c : Config} {i : Instr} {s t : State} (h : execWith c i s = .next t)
    (he : isEdge i = false) (hd : isDetent i = false) : t.lastTs = s.lastTs := by
  cases i with
  | edge _ _ => simp [isEdge] at he
  | detent _ _ => simp [isDetent] at hd
  | setMult m =>
    cases hm : multOperandValue c m with
    | none => rw [execWith_setMult_none hm] at h; cases h; rfl
    | some q => rw [execWith_setMult_some hm] at h; cases h; rfl
  | init =>
    cases ha : s.armed with
    | false => rw [execWith_init_first c ha] at h; cases h; rfl
    | true => rw [execWith_init_again c ha] at h; cases h; rfl
  | drain => cases h; rfl
  | setVs en => cases h; rfl
  | inject v => cases h; rfl
  | reserved => cases h; rfl

/-- An operation that is no `DETENT` and did not answer `CW` or `CCW` ran no detent. -/
theorem ranNoDetent_of_not_emitted {c : Config} {i : Instr} {s t : State} (h : execWith c i s = .next t)
    (hd : isDetent i = false) (hcw : t.results ≠ s.results ++ [.event .cw])
    (hccw : t.results ≠ s.results ++ [.event .ccw]) :
    ∃ new, t.results = s.results ++ new ∧ RanNoDetent [i] new := by
  obtain ⟨-, hres | ⟨r, hres⟩⟩ := execWith_frame h
  · exact ⟨[], by simp [hres], by simp [RanNoDetent, eventCount, hd]⟩
  · have hr : r ≠ .event .cw ∧ r ≠ .event .ccw := ⟨by rintro rfl; exact hcw hres, by rintro rfl; exact hccw hres⟩
    exact ⟨[r], hres, by simp [RanNoDetent, eventCount, hd, hr]⟩

/-- An `EDGE` sets `LAST_TS` exactly when it emitted `CW` or `CCW` (R83, R107). -/
theorem execWith_edge_lastTs {c : Config} {x : Sample} {now : Word} {s t : State}
    (h : execWith c (.edge x now) s = .next t) :
    t.lastTs = if t.results = s.results ++ [.event .cw] ∨ t.results = s.results ++ [.event .ccw] then now else s.lastTs := by
  split_ifs with hem
  · obtain hcw | hccw := hem
    · exact (execWith_ranDetent h (.inr ⟨x, .cw, rfl, eventDirection_cw, hcw⟩)).1
    · exact (execWith_ranDetent h (.inr ⟨x, .ccw, rfl, eventDirection_ccw, hccw⟩)).1
  · obtain ⟨hcw, hccw⟩ := not_or.mp hem
    obtain ⟨new, hres, hno⟩ := ranNoDetent_of_not_emitted h rfl hcw hccw
    exact execWith_ranNoDetent h hres hno

/-- Settles O26: a `DETENT` writes `LAST_TS`, an `EDGE` does so by the detent it ran, and no other operation does. -/
theorem lastTsIsWrittenByDetentsOnly : Obligations.LastTsIsWrittenByDetentsOnly := by
  intro c i s t h
  cases i with
  | edge x now => exact execWith_edge_lastTs h
  | detent d now =>
    rw [execWith_detent] at h
    cases h
    exact ⟨rfl, fun later => rfl⟩
  | _ => exact execWith_keeps_lastTs h rfl rfl

end Sys2Proof.Machine

/-! ### The accumulator: the speed curves (41_accumulator.md R102, R103) -/

namespace Sys2Proof.Machine

section Interpolation

variable {k : Curve} {dt : Rat}

/-- Flat up to and including the first threshold (R103). -/
theorem interpolateQ_of_le_first (h : dt ≤ k.p1.x) : interpolateQ k dt = k.p1.y := if_pos h

/-- Flat from the second threshold on (R103). -/
theorem interpolateQ_of_second_le (hk : k.p1.x < k.p2.x) (h : k.p2.x ≤ dt) : interpolateQ k dt = k.p2.y := by
  rw [interpolateQ, if_neg (hk.trans_le h).not_ge, if_pos h]

/-- Linear strictly between the thresholds (R103). -/
theorem interpolateQ_of_between (h1 : k.p1.x < dt) (h2 : dt < k.p2.x) :
    interpolateQ k dt = k.p1.y + (dt - k.p1.x) * (k.p2.y - k.p1.y) / (k.p2.x - k.p1.x) := by
  rw [interpolateQ, if_neg h1.not_ge, if_neg h2.not_ge]

/-- The three pieces are one line, followed at the interval clamped to the thresholds: the curve is continuous, and rises or
falls as the line does. -/
theorem interpolateQ_eq_line_at_clamp (hk : k.p1.x < k.p2.x) :
    interpolateQ k dt = k.p1.y + (clampQ dt k.p1.x k.p2.x - k.p1.x) * (k.p2.y - k.p1.y) / (k.p2.x - k.p1.x) := by
  obtain h1 | h1 := le_or_gt dt k.p1.x
  · simp [interpolateQ_of_le_first h1, clampQ, max_eq_right h1, min_eq_left hk.le]
  · obtain h2 | h2 := le_or_gt k.p2.x dt
    · have hne : k.p2.x - k.p1.x ≠ 0 := (sub_pos.mpr hk).ne'
      rw [interpolateQ_of_second_le hk h2, clampQ, max_eq_left h1.le, min_eq_right h2, mul_div_cancel_left₀ _ hne]
      ring
    · rw [interpolateQ_of_between h1 h2, clampQ, max_eq_left h1.le, min_eq_left h2.le]

/-- The line holds at both thresholds too. -/
theorem interpolateQ_of_mem (hk : k.p1.x < k.p2.x) (h1 : k.p1.x ≤ dt) (h2 : dt ≤ k.p2.x) :
    interpolateQ k dt = k.p1.y + (dt - k.p1.x) * (k.p2.y - k.p1.y) / (k.p2.x - k.p1.x) := by
  rw [interpolateQ_eq_line_at_clamp hk, clampQ, max_eq_left h1, min_eq_left h2]

end Interpolation

/-- A curve whose second step is not the larger one never rises with the interval. -/
theorem interpolateQ_antitone {k : Curve} (hk : k.p1.x < k.p2.x) (hy : k.p2.y ≤ k.p1.y) : Antitone (interpolateQ k) := by
  intro a b hab
  have hclamp : clampQ a k.p1.x k.p2.x ≤ clampQ b k.p1.x k.p2.x := clampQ_mono hab
  have hslope : (k.p2.y - k.p1.y) / (k.p2.x - k.p1.x) ≤ 0 :=
    div_nonpos_of_nonpos_of_nonneg (sub_nonpos.mpr hy) (sub_pos.mpr hk).le
  simp only [interpolateQ_eq_line_at_clamp hk, mul_div_assoc]
  exact add_le_add_right (mul_le_mul_of_nonpos_right (sub_le_sub_right hclamp _) hslope) _

/-- The thresholds of both curves are in order, and so are their steps (R102). -/
theorem curveFor_built_falls (dir : Direction) :
    (curveFor built dir).p1.x < (curveFor built dir).p2.x ∧ (curveFor built dir).p2.y ≤ (curveFor built dir).p1.y := by
  cases dir <;> norm_num [curveFor, built, configOf, incCurve, decCurve]

/-- Settles O29: the three pieces are the definition's, and the line through both points, followed at the clamped interval, gives
the closed range and the monotonicity. -/
theorem rawStepIsTheTwoPointInterpolation : Obligations.RawStepIsTheTwoPointInterpolation := by
  refine ⟨rfl, rfl, fun k dt hk => ?pieces, fun dt h5 h250 => ⟨?inc, ?dec⟩, fun dir a b hab => ?falls⟩
  case pieces => exact ⟨interpolateQ_of_le_first, interpolateQ_of_second_le hk, interpolateQ_of_between⟩
  case inc =>
    rw [interpolateQ_of_mem (curveFor_built_falls .cw).1 h5 h250]
    change (10 : Rat) + (dt - 5) * (1 - 10) / (250 - 5) = _
    ring
  case dec =>
    rw [interpolateQ_of_mem (curveFor_built_falls .ccw).1 h5 h250]
    change (50 : Rat) + (dt - 5) * (1 - 50) / (250 - 5) = _
    ring
  case falls =>
    obtain ⟨hx, hy⟩ := curveFor_built_falls dir
    exact interpolateQ_antitone hx hy hab

end Sys2Proof.Machine

/-! ### The accumulator: the configuration writes (41_accumulator.md R111, R112) -/

namespace Sys2Proof.Machine

/-- A word with op code `0b010` is `SET_VS` of bit 3 (R69). -/
theorem decode_of_opCode_setVs {w : CmdWord} (h : opCode w = 0b010#3) : decode w = .setVs (w.getLsbD 3) := by
  simp [decode, h]

/-- A word with op code `0b011` is `SET_MULT` of bits 34 to 3 (R69). -/
theorem decode_of_opCode_setMult {w : CmdWord} (h : opCode w = 0b011#3) :
    decode w = .setMult (.word (w.extractLsb' 3 32)) := by
  simp [decode, h]

/-- Results are no input of the step (R105). -/
@[simp] theorem stepSize_yieldResult (c : Config) (s : State) (r : Result) (d : Direction) (now : Word) :
    stepSize c (yieldResult s r) d now = stepSize c s d now := rfl

/-- After `VS_EN` is written the step is the computed one or 1 by the new value (R105, R111). -/
theorem stepSize_setVsEn (c : Config) (s : State) (en : Bool) (d : Direction) (now : Word) :
    stepSize c (setVsEn s en) d now = if en then variableStep c d (dtTicks s now) s.mult else 1 := rfl

/-- After `MULT` is written the computed step uses the new value (R105, R112). -/
theorem stepSize_setMult (c : Config) (s : State) (q : Rat) (d : Direction) (now : Word) :
    stepSize c (setMult s q) d now = if s.vsEn then variableStep c d (dtTicks s now) q else 1 := rfl

/-- `SET_VS` on this hardware (R111). -/
theorem exec_setVs (en : Bool) (s : State) : exec (.setVs en) s = .next (yieldResult (setVsEn s en) .nothing) := by
  rw [exec_eq_execWith, execWith_setVs]

/-- `SET_MULT` on this hardware, of an operand that is a number (R112). -/
theorem exec_setMult_some {m : MultOperand} {q : Rat} (h : multOperandValue built m = some q) (s : State) :
    exec (.setMult m) s = .next (yieldResult (setMult s q) .nothing) := by
  rw [exec_eq_execWith, execWith_setMult_some h]

/-- Settles O37: `SET_VS` is the one register update `setVsEn`, and the step reads the updated register. -/
theorem setVsWritesTheFlagOnly : Obligations.SetVsWritesTheFlagOnly := by
  refine ⟨fun w => decode_of_opCode_setVs, fun s en => ⟨exec_setVs en s, fun t ht => ?next⟩⟩
  rw [exec_setVs] at ht
  cases ht
  refine ⟨fun hsame => ⟨rfl, rfl, rfl, hsame, rfl, rfl⟩, fun d now => ?_⟩
  rw [stepSize_yieldResult, stepSize_setVsEn]

/-- The increment curve at the middle of its range (R103). -/
theorem interpolateQ_inc_midpoint : interpolateQ incCurve (255 / 2) = 11 / 2 := by
  rw [interpolateQ_inc]
  norm_num

/-- R112's example: multiplier 2 doubles the raw step 5.5 at 127.5 ms to exactly 11. -/
theorem variableStep_midpoint_of_two : variableStep built .cw 127500 2 = 11 := by
  have hscaled : interpolateQ (curveFor (configOf .half) .cw) (((127500 : Nat) : Rat) / 1000) * 2 = 11 := by
    rw [show (((127500 : Nat) : Rat) / 1000) = 255 / 2 by norm_num, show curveFor (configOf .half) .cw = incCurve from rfl,
      interpolateQ_inc_midpoint]
    norm_num
  rw [built, variableStep_configOf, hscaled, roundHalfUp_eq_iff]
  norm_num [clampQ]

/-- Both operand forms give their number (R70, R112). -/
theorem multOperandValue_built {m : MultOperand} {q : Rat}
    (h : m = .value q ∨ ∃ bits, m = .word bits ∧ binary32 bits = some q) : multOperandValue built m = some q := by
  obtain rfl | ⟨bits, rfl, hbits⟩ := h
  · rfl
  · exact hbits

/-- Settles O38: `SET_MULT` of a number is the one register update `setMult`, and the step reads the updated register. -/
theorem setMultWritesTheMultiplierOnly : Obligations.SetMultWritesTheMultiplierOnly := by
  refine ⟨fun w => decode_of_opCode_setMult, variableStep_midpoint_of_two, fun s m q hm => ?write⟩
  have hex := exec_setMult_some (multOperandValue_built hm) s
  refine ⟨hex, fun t ht d now => ?_⟩
  rw [hex] at ht
  cases ht
  rw [stepSize_yieldResult, stepSize_setMult]

end Sys2Proof.Machine

/-! ### The drain (42_drain.md R130, R132) -/

namespace Sys2Proof.Machine

/-- A word with op code `0b001` is `DRAIN` (R69). -/
theorem decode_of_opCode_drain {w : CmdWord} (h : opCode w = 0b001#3) : decode w = .drain := by
  simp [decode, h]

/-- `DRAIN` on this hardware (R130). -/
theorem exec_drain (s : State) : exec .drain s = .next (yieldResult (setCount s 0#32) (.drained s.count.toInt)) := by
  rw [exec_eq_execWith, execWith_drain]

/-- Settles O43: `DRAIN` is the one register update `setCount` to 0, and yields the signed value it replaced. -/
theorem drainReturnsTheCountAndClearsIt : Obligations.DrainReturnsTheCountAndClearsIt :=
  ⟨fun _ => decode_of_opCode_drain, exec_drain⟩

/-- An event that is neither `CW` nor `CCW` runs no detent (R81). -/
theorem eventDirection_eq_none_of_eventCount {ev : Event} (hcw : eventCount .cw [.event ev] = 0)
    (hccw : eventCount .ccw [.event ev] = 0) : eventDirection ev = none := by
  cases ev with
  | none => rfl
  | cw => simp [eventCount] at hcw
  | ccw => simp [eventCount] at hccw

/-- An operation that ran no detent turned nothing (R83, R133). -/
theorem turnOf_eq_zero_of_ranNoDetent {c : Config} {i : Instr} {s t : State} {new : List Result}
    (h : execWith c i s = .next t) (hres : t.results = s.results ++ new) (hn : RanNoDetent [i] new) : turnOf c i s = 0 := by
  obtain ⟨hi, hcw, hccw⟩ := hn
  cases i with
  | edge x now =>
    cases ha : s.armed with
    | false => simp [turnOf, ha]
    | true =>
      obtain ⟨e, he, rfl⟩ := execWith_edge_next ha h
      rw [edgeWithEntry_results, List.append_cancel_left_eq] at hres
      subst hres
      rw [turnOf_edge ha he, eventDirection_eq_none_of_eventCount hcw hccw]
  | detent d now => simp [isDetent] at hi
  | _ => rfl

/-- Only an `INJECT` injects (R133). -/
theorem injectOf_eq_zero {i : Instr} (hi : ∀ x, i ≠ .inject x) : injectOf i = 0 := by
  cases i with
  | inject v => exact absurd rfl (hi v)
  | _ => rfl

/-- An operation that ran no detent and is neither `INJECT` nor `DRAIN` leaves `COUNT` alone. -/
theorem execWith_keeps_count {c : Config} {i : Instr} {s t : State} {new : List Result} (h : execWith c i s = .next t)
    (hres : t.results = s.results ++ new) (hn : RanNoDetent [i] new) (hi : ∀ x, i ≠ .inject x) (hd : i ≠ .drain) :
    t.count = s.count := by
  rw [execWith_count hd h, turnOf_eq_zero_of_ranNoDetent h hres hn, injectOf_eq_zero hi]
  simp [wrapWord]

/-- An operation that ran no detent and is no `INJECT` leaves an empty `COUNT` empty: a `DRAIN` too. -/
theorem execWith_keeps_count_zero {c : Config} {i : Instr} {s t : State} {new : List Result} (h : execWith c i s = .next t)
    (hres : t.results = s.results ++ new) (hn : RanNoDetent [i] new) (hi : ∀ x, i ≠ .inject x) (hs : s.count = 0#32) :
    t.count = 0#32 := by
  obtain rfl | hd := eq_or_ne i .drain
  · rw [execWith_drain] at h
    cases h
    rfl
  · rw [execWith_keeps_count h hres hn hi hd, hs]

/-- Inversion of a trace that ran no detent: neither did its first operation, nor the rest. -/
theorem runTrace_cons_ranNoDetent {c : Config} {i : Instr} {is : List Instr} {s t : State} {new : List Result}
    (h : runTrace c (i :: is) s = .next t) (hres : t.results = s.results ++ new) (hn : RanNoDetent (i :: is) new) :
    ∃ u a b, (execWith c i s = .next u ∧ u.results = s.results ++ a ∧ RanNoDetent [i] a) ∧
      runTrace c is u = .next t ∧ t.results = u.results ++ b ∧ RanNoDetent is b := by
  obtain ⟨u, hu, ht⟩ := runTrace_cons_next h
  obtain ⟨a, ha⟩ := runTrace_results (runTrace_cons (is := []) hu)
  obtain ⟨b, hb⟩ := runTrace_results ht
  rw [hb, ha, List.append_assoc, List.append_cancel_left_eq] at hres
  subst hres
  simp only [RanNoDetent, List.forall_mem_cons, eventCount_append, Nat.add_eq_zero_iff] at hn
  obtain ⟨⟨hi, his⟩, ⟨hcwa, hcwb⟩, hccwa, hccwb⟩ := hn
  exact ⟨u, a, b, ⟨hu, ha, by simpa using hi, hcwa, hccwa⟩, ht, hb, his, hcwb, hccwb⟩

/-- A trace that ran no detent and holds no `INJECT` leaves an empty `COUNT` empty. -/
theorem runTrace_keeps_count_zero {c : Config} {is : List Instr} {s t : State} {new : List Result}
    (h : runTrace c is s = .next t) (hres : t.results = s.results ++ new) (hn : RanNoDetent is new)
    (hinj : ∀ i ∈ is, ∀ x, i ≠ .inject x) (hs : s.count = 0#32) : t.count = 0#32 := by
  induction is generalizing s new with
  | nil => cases h; exact hs
  | cons i is ih =>
    obtain ⟨hi, his⟩ := List.forall_mem_cons.mp hinj
    obtain ⟨u, a, b, ⟨hu, ha, hna⟩, ht, hb, hnb⟩ := runTrace_cons_ranNoDetent h hres hn
    exact ih ht hb hnb his (execWith_keeps_count_zero hu ha hna hi hs)

/-- A `DRAIN` of an empty `COUNT` returns 0 and changes no register (R132). -/
theorem exec_drain_of_count_zero {s t : State} (h : exec .drain s = .next t) (hs : s.count = 0#32) :
    t.results = s.results ++ [.drained 0] ∧ SameRegisters s t := by
  rw [exec_drain] at h
  cases h
  simp [SameRegisters, hs]

/-- Settles O44: the first `DRAIN` leaves `COUNT` empty, the operations between keep it so, and the second `DRAIN` finds it
empty. -/
theorem secondDrainReturnsZero : Obligations.SecondDrainReturnsZero := by
  intro s u v t mid new hfirst hmid hrun hres hcw hccw hsecond
  have hu : u.count = 0#32 := by
    rw [exec_drain] at hfirst
    cases hfirst
    rfl
  have hv : v.count = 0#32 :=
    runTrace_keeps_count_zero hrun hres ⟨fun i hi => (hmid i hi).1, hcw, hccw⟩ (fun i hi => (hmid i hi).2) hu
  exact exec_drain_of_count_zero hsecond hv

end Sys2Proof.Machine

/-! ### The command word: decode and encode agree (30_encoding.md R68 to R71) -/

namespace Sys2Proof.Machine

/-- A word with op code `0b000` is `EDGE` (R69). -/
theorem decode_of_opCode_edge {w : CmdWord} (h : opCode w = 0b000#3) :
    decode w = .edge (w.extractLsb' 3 2) (w.extractLsb' 5 32) := by
  simp [decode, h]

/-- A word with op code `0b100` is `INJECT` (R69). -/
theorem decode_of_opCode_inject {w : CmdWord} (h : opCode w = 0b100#3) : decode w = .inject (w.extractLsb' 3 32) := by
  simp [decode, h]

/-- A word with op code `0b101` is `INIT` (R69). -/
theorem decode_of_opCode_init {w : CmdWord} (h : opCode w = 0b101#3) : decode w = .init := by
  simp [decode, h]

/-- A word with op code `0b110` is `DETENT` (R69). -/
theorem decode_of_opCode_detent {w : CmdWord} (h : opCode w = 0b110#3) :
    decode w = .detent (directionOfBit (w.getLsbD 3)) (w.extractLsb' 4 32) := by
  simp [decode, h]

/-- A word with op code `0b111` is the reserved code (R71). -/
theorem decode_of_opCode_reserved {w : CmdWord} (h : opCode w = 0b111#3) : decode w = .reserved := by
  simp [decode, h]

/-- The op code of a word is one of the eight of R69. -/
theorem opCode_cases (w : CmdWord) :
    opCode w = 0b000#3 ∨ opCode w = 0b001#3 ∨ opCode w = 0b010#3 ∨ opCode w = 0b011#3 ∨ opCode w = 0b100#3 ∨
      opCode w = 0b101#3 ∨ opCode w = 0b110#3 ∨ opCode w = 0b111#3 := by
  generalize opCode w = k
  decide +revert

@[simp] theorem directionOfBit_bit (dir : Direction) : directionOfBit dir.bit = dir := by cases dir <;> rfl

@[simp] theorem bit_directionOfBit (b : Bool) : (directionOfBit b).bit = b := by cases b <;> rfl

/-- Settles O2: the op code selects the row, and each field of `ARG` is read back where the encoder appended it. -/
theorem decodeOfEncodeIsTheInstruction : Obligations.DecodeOfEncodeIsTheInstruction := by
  intro i hwf
  cases i with
  | edge x now =>
    refine ⟨_, rfl, ?_⟩
    rw [decode_of_opCode_edge (opCode_append _ _ (by omega)), extractLsb'_append_op _ _ 0 (by omega),
      extractLsb'_append_op _ _ 2 (by omega), BitVec.extractLsb'_append_eq_right, BitVec.extractLsb'_append_eq_left]
  | drain => exact ⟨_, rfl, rfl⟩
  | setVs en =>
    refine ⟨_, rfl, ?_⟩
    rw [decode_of_opCode_setVs (opCode_append _ _ (by omega)), getLsbD_append_op _ _ 0]
    simp
  | setMult m =>
    cases m with
    | word bits =>
      refine ⟨_, rfl, ?_⟩
      rw [decode_of_opCode_setMult (opCode_append _ _ (by omega)), extractLsb'_append_op _ _ 0 (by omega),
        BitVec.extractLsb'_eq_self]
    | value q => simp [Instr.wf] at hwf
  | inject v =>
    refine ⟨_, rfl, ?_⟩
    rw [decode_of_opCode_inject (opCode_append _ _ (by omega)), extractLsb'_append_op _ _ 0 (by omega),
      BitVec.extractLsb'_eq_self]
  | init => exact ⟨_, rfl, rfl⟩
  | detent dir now =>
    refine ⟨_, rfl, ?_⟩
    rw [decode_of_opCode_detent (opCode_append _ _ (by omega)), getLsbD_append_op _ _ 0,
      extractLsb'_append_op _ _ 1 (by omega), BitVec.extractLsb'_append_eq_left, BitVec.getLsbD_append]
    simp
  | reserved => exact ⟨_, rfl, rfl⟩

/-- The low `n` bits of `ARG` put back above the op code are the word with the bits above them cleared. -/
theorem arg_append_opCode {w : CmdWord} {k : BitVec 3} (h : opCode w = k) (n : Nat) :
    (w.extractLsb' 3 n ++ k).setWidth 37 = w &&& (BitVec.allOnes (n + 3)).setWidth 37 := by
  rw [← h, opCode, BitVec.extractLsb'_append_extractLsb'_eq_extractLsb' (by rfl)]
  apply BitVec.eq_of_getLsbD_eq
  intro i hi
  simp [hi, Bool.and_comm]

/-- Where encoding the decoded word puts the low `n` bits of `ARG` back and the operation uses exactly these and the op code,
encoding it again clears the unused bits (R68). -/
theorem encode_decode_of_usedBits {w : CmdWord} {i : Instr} {k : BitVec 3} (n : Nat) (hk : opCode w = k) (hi : decode w = i)
    (hwf : i.wf = true) (he : encode i = some ((w.extractLsb' 3 n ++ k).setWidth 37))
    (hu : usedBits w = (BitVec.allOnes (n + 3)).setWidth 37) :
    (decode w).wf = true ∧ encode (decode w) = some (w &&& usedBits w) := by
  rw [hi, he, hu, arg_append_opCode hk]
  exact ⟨hwf, rfl⟩

/-- The same for an operation that has no operand: it uses the op code alone. -/
theorem encode_decode_of_opCode_alone {w : CmdWord} {i : Instr} {k : BitVec 3} (hk : opCode w = k) (hi : decode w = i)
    (hwf : i.wf = true) (he : encode i = some (k.setWidth 37)) (hu : usedBits w = 0x7#37) :
    (decode w).wf = true ∧ encode (decode w) = some (w &&& usedBits w) := by
  refine encode_decode_of_usedBits 0 hk hi hwf ?_ hu
  rw [he, BitVec.zero_width_append]
  rfl

/-- One bit as a vector is the field of that bit. -/
theorem ofBool_getLsbD_eq_extractLsb' {n : Nat} (w : BitVec n) (k : Nat) : BitVec.ofBool (w.getLsbD k) = w.extractLsb' k 1 := by
  apply BitVec.eq_of_getLsbD_eq
  intro i hi
  obtain rfl : i = 0 := by omega
  simp

/-- Settles O3: by the op code, each row of R69 reads the low bits of `ARG` and the encoder puts exactly these back. -/
theorem encodeOfDecodeClearsTheUnusedBits : Obligations.EncodeOfDecodeClearsTheUnusedBits := by
  intro w
  obtain h | h | h | h | h | h | h | h := opCode_cases w
  · refine encode_decode_of_usedBits 34 h (decode_of_opCode_edge h) rfl ?_ (by rw [usedBits, h]; rfl)
    rw [encode, BitVec.extractLsb'_append_extractLsb'_eq_extractLsb' (by rfl)]
  · exact encode_decode_of_opCode_alone h (decode_of_opCode_drain h) rfl rfl (by rw [usedBits, h]; rfl)
  · refine encode_decode_of_usedBits 1 h (decode_of_opCode_setVs h) rfl ?_ (by rw [usedBits, h]; rfl)
    rw [encode, ofBool_getLsbD_eq_extractLsb']
  · exact encode_decode_of_usedBits 32 h (decode_of_opCode_setMult h) rfl rfl (by rw [usedBits, h]; rfl)
  · exact encode_decode_of_usedBits 32 h (decode_of_opCode_inject h) rfl rfl (by rw [usedBits, h]; rfl)
  · exact encode_decode_of_opCode_alone h (decode_of_opCode_init h) rfl rfl (by rw [usedBits, h]; rfl)
  · refine encode_decode_of_usedBits 33 h (decode_of_opCode_detent h) rfl ?_ (by rw [usedBits, h]; rfl)
    rw [encode, bit_directionOfBit, ofBool_getLsbD_eq_extractLsb',
      BitVec.extractLsb'_append_extractLsb'_eq_extractLsb' (by rfl)]
  · exact encode_decode_of_opCode_alone h (decode_of_opCode_reserved h) rfl rfl (by rw [usedBits, h]; rfl)

/-- Settles O1: the ten words, each decoded by evaluation. -/
theorem listedWordsDecodeAsPrinted : Obligations.ListedWordsDecodeAsPrinted := by
  unfold Obligations.ListedWordsDecodeAsPrinted
  decide

/-- The decoder reads the row off the op code (R69). -/
theorem rowNumber_decode (w : CmdWord) : Laws.OpCodeRow.rowNumber (decode w) = (opCode w).toNat := by
  obtain h | h | h | h | h | h | h | h := opCode_cases w <;> rw [decode, h] <;> rfl

/-- A word decodes to the reserved code exactly with the op code `0b111` (R71). -/
theorem decode_eq_reserved_iff (w : CmdWord) : decode w = .reserved ↔ opCode w = 0b111#3 := by
  refine ⟨fun hdec => BitVec.eq_of_toNat_eq ?_, decode_of_opCode_reserved⟩
  rw [← rowNumber_decode, hdec]
  rfl

/-- The operation an instruction is, `none` for the reserved code (R71). -/
def instrOperation : Instr → Option Operation
  | .edge x now => some (.edge x now)
  | .drain => some .drain
  | .setVs en => some (.setVs en)
  | .setMult m => some (.setMult m)
  | .inject v => some (.inject v)
  | .init => some .init
  | .detent dir now => some (.detent dir now)
  | .reserved => none

/-- It is read back from the instruction of an operation. -/
@[simp] theorem instrOperation_operationInstr (o : Operation) : instrOperation (operationInstr o) = some o := by
  cases o <;> rfl

/-- Every instruction but the reserved code is that of its operation. -/
theorem exists_operationInstr_eq {i : Instr} (h : i ≠ .reserved) : ∃ o, operationInstr o = i := by
  cases i with
  | edge x now => exact ⟨.edge x now, rfl⟩
  | drain => exact ⟨.drain, rfl⟩
  | setVs en => exact ⟨.setVs en, rfl⟩
  | setMult m => exact ⟨.setMult m, rfl⟩
  | inject v => exact ⟨.inject v, rfl⟩
  | init => exact ⟨.init, rfl⟩
  | detent dir now => exact ⟨.detent dir now, rfl⟩
  | reserved => exact absurd rfl h

/-- The instruction of an operation determines it. -/
theorem operationInstr_injective : Function.Injective operationInstr := by
  intro o p h
  simpa using congrArg instrOperation h

/-- Settles O51: the op code decides, `exec` declines, and `operationInstr` is a bijection onto the other instructions. -/
theorem reservedOpCodeChangesNothing : Obligations.ReservedOpCodeChangesNothing := by
  refine ⟨decode_eq_reserved_iff, fun s => ?_, operationInstr_ne_reserved, fun i hi => ?_⟩
  · rw [exec_eq_execWith, execWith_reserved]
    rfl
  · obtain ⟨o, rfl⟩ := exists_operationInstr_eq hi
    exact ⟨o, rfl, fun p hp => operationInstr_injective hp⟩

/-! ### The operands: pin samples and multiplier words (30_encoding.md R60, R70) -/

/-- The sample of two pin levels, read unsigned (R60). -/
theorem sampleOfPins_toNat (pinA pinB : Bool) : (sampleOfPins pinA pinB).toNat = 2 * pinB.toNat + pinA.toNat := by
  cases pinA <;> cases pinB <;> rfl

/-- Settles O15: the two levels appended are `2*B + A`, and `onEdge` is `EDGE` on that sample. -/
theorem sampleOfPinsIsTwoBPlusA : Obligations.SampleOfPinsIsTwoBPlusA := by
  refine fun pinA pinB => ⟨sampleOfPins_toNat pinA pinB, fun now s => ?_⟩
  rw [← sampleOfPins_toNat, BitVec.ofNat_toNat, BitVec.setWidth_eq]
  rfl

/-- `2^e` below exponent 0. -/
theorem pow2_of_neg {e : Int} {n : Nat} (h : e = -n) : pow2 e = 1 / 2 ^ n := by
  subst h
  obtain rfl | hn := Nat.eq_zero_or_pos n
  · simp [pow2]
  · simp [pow2, show n ≠ 0 by omega]

/-- `2^e` from exponent 0 on. -/
theorem pow2_of_nonneg {e : Int} {n : Nat} (h : e = n) : pow2 e = 2 ^ n := by
  subst h
  simp [pow2]

/-- No number at exponent field 255 (R70). -/
theorem binary32_of_exponent_255 {b : Word} (h : (b.extractLsb' 23 8).toNat = 255) : binary32 b = none := by
  rw [binary32, if_pos h]

/-- Subnormal words and both zeros (R70). -/
theorem binary32_of_exponent_0 {b : Word} (h : (b.extractLsb' 23 8).toNat = 0) :
    binary32 b = some (signFactor (b.getLsbD 31) * pow2 (-126) * ((b.extractLsb' 0 23).toNat / (2 ^ 23 : Nat))) := by
  rw [binary32, if_neg (by omega), if_pos h]

/-- Normal words (R70). -/
theorem binary32_of_normal {b : Word} (h1 : 1 ≤ (b.extractLsb' 23 8).toNat) (h2 : (b.extractLsb' 23 8).toNat ≤ 254) :
    binary32 b = some (signFactor (b.getLsbD 31) * pow2 (((b.extractLsb' 23 8).toNat : Int) - 127) *
      (1 + (b.extractLsb' 0 23).toNat / (2 ^ 23 : Nat))) := by
  rw [binary32, if_neg (by omega), if_neg (by omega)]

/-- Settles O4: the three cases of the exponent field, the normal one in two by the sign of the power of two. -/
theorem multiplierWordsDenoteBinary32Values : Obligations.MultiplierWordsDenoteBinary32Values := by
  intro b sign ex frac
  have hsign : signFactor (b.getLsbD 31) = sign := rfl
  refine ⟨binary32_of_exponent_255, fun h => ?_, fun h1 h2 => ?_, fun h1 h2 => ?_⟩
  · rw [binary32_of_exponent_0 h, hsign, pow2_of_neg (e := -126) (n := 126) rfl]
    change some (sign * (1 / 2 ^ 126) * (frac / (2 ^ 23 : Nat))) = _
    congr 1
    push_cast
    ring
  · rw [binary32_of_normal h1 (by omega), hsign, pow2_of_neg (n := 127 - ex) (by omega)]
    change some (sign * (1 / 2 ^ (127 - ex)) * (1 + frac / (2 ^ 23 : Nat))) = _
    congr 1
    push_cast
    ring
  · rw [binary32_of_normal (by omega) h2, hsign, pow2_of_nonneg (n := ex - 127) (by omega)]
    change some (sign * 2 ^ (ex - 127) * (1 + frac / (2 ^ 23 : Nat))) = _
    congr 1
    push_cast
    ring

end Sys2Proof.Machine

/-! ### What an operation can do, once for all operations -/

namespace Sys2Proof.Machine

/-- The operation, performed from `s`, completes in the state: one case for each way an operation has of completing. -/
inductive Performs (c : Config) (s : State) : Instr → State → Prop
  | edgeUnarmed (x : Sample) (now : Word) (ha : s.armed = false) : Performs c s (.edge x now) s
  | edge (x : Sample) (now : Word) (e : Byte) (ha : s.armed = true) (he : tableEntry c (rowOf s) x = some e) :
      Performs c s (.edge x now) (edgeWithEntry c e now s)
  | drain : Performs c s .drain (yieldResult (setCount s 0#32) (.drained s.count.toInt))
  | setVs (en : Bool) : Performs c s (.setVs en) (yieldResult (setVsEn s en) .nothing)
  | setMult (m : MultOperand) (q : Rat) (hm : multOperandValue c m = some q) :
      Performs c s (.setMult m) (yieldResult (setMult s q) .nothing)
  | setMultDeclined (m : MultOperand) (hm : multOperandValue c m = none) :
      Performs c s (.setMult m) (decline s .notANumber)
  | inject (v : Word) : Performs c s (.inject v) (yieldResult (addCount s (injectValue v)) .nothing)
  | init (ha : s.armed = false) : Performs c s .init (yieldResult (setArmed s true) .nothing)
  | initDeclined (ha : s.armed = true) : Performs c s .init (decline s .secondInit)
  | detent (d : Direction) (now : Word) : Performs c s (.detent d now) (yieldResult (applyDetent c d now s) .nothing)
  | reserved : Performs c s .reserved (decline s .reservedOpCode)

/-- The cases are those of `execWith`. -/
theorem execWith_eq_next_iff {c : Config} {i : Instr} {s t : State} : execWith c i s = .next t ↔ Performs c s i t := by
  constructor
  · intro h
    cases i with
    | edge x now =>
      obtain ⟨ha, he⟩ | ⟨ha, e, hte, he⟩ | ⟨-, -, he⟩ := execWith_edge_cases c x now s <;> rw [he] at h <;> cases h
      · exact .edgeUnarmed x now ha
      · exact .edge x now e ha hte
    | setMult m =>
      cases hm : multOperandValue c m with
      | none => rw [execWith_setMult_none hm] at h; cases h; exact .setMultDeclined m hm
      | some q => rw [execWith_setMult_some hm] at h; cases h; exact .setMult m q hm
    | init =>
      cases ha : s.armed with
      | false => rw [execWith_init_first c ha] at h; cases h; exact .init ha
      | true => rw [execWith_init_again c ha] at h; cases h; exact .initDeclined ha
    | drain => cases h; exact .drain
    | setVs en => cases h; exact .setVs en
    | inject v => cases h; exact .inject v
    | detent d now => cases h; exact .detent d now
    | reserved => cases h; exact .reserved
  · intro h
    cases h with
    | edgeUnarmed x now ha => simp [execWith, execEdgeWith, takeEdgeInterrupt, ha]
    | edge x now e ha he => exact execWith_edge_of_entry ha he now
    | setMult m q hm => exact execWith_setMult_some hm s
    | setMultDeclined m hm => exact execWith_setMult_none hm s
    | init ha => exact execWith_init_first c ha
    | initDeclined ha => exact execWith_init_again c ha
    | _ => rfl

/-- Inversion of an operation that completes. -/
theorem performs_of_execWith {c : Config} {i : Instr} {s t : State} (h : execWith c i s = .next t) : Performs c s i t :=
  execWith_eq_next_iff.mp h

/-- Only an `EDGE` can fault. -/
theorem execWith_ne_fault_of_not_edge {c : Config} {i : Instr} {s : State} {r : Fault} (hi : isEdge i = false) :
    execWith c i s ≠ .fault r := by
  obtain ⟨t, ht, -⟩ := execWith_not_edge (c := c) hi s
  simp [ht]

/-- A fault is exactly an armed `EDGE` whose row the table does not have (U6). -/
theorem execWith_eq_fault_iff {c : Config} {i : Instr} {s : State} {r : Fault} :
    execWith c i s = .fault r ↔
      s.armed = true ∧ ∃ x now, i = .edge x now ∧ tableEntry c (rowOf s) x = none := by
  constructor
  · intro h
    cases i with
    | edge x now =>
      obtain ⟨-, he⟩ | ⟨-, e, -, he⟩ | ⟨ha, hnone, -⟩ := execWith_edge_cases c x now s
      · rw [he] at h; cases h
      · rw [he] at h; cases h
      · exact ⟨ha, x, now, rfl, hnone⟩
    | _ => exact absurd h (execWith_ne_fault_of_not_edge rfl)
  · rintro ⟨ha, x, now, rfl, hnone⟩
    cases r
    simp [execWith, execEdgeWith, takeEdgeInterrupt, edgeHandler, ha, hnone]

/-! ### Which operation writes which register (10_state.md sections 1 and 8) -/

/-- Settles O52: read off the cases of `Performs`. -/
theorem eachRegisterHasItsWriters : Obligations.EachRegisterHasItsWriters := by
  intro c i s t h
  cases performs_of_execWith h with
  | edgeUnarmed x now ha => simp
  | edge x now e ha he => simp [isEdge, isCounting, ha]
  | setMult m q hm => simp [hm]
  | init ha => simp [ha]
  | _ => simp [isDetent, isCounting]

/-- `ARMED` once set stays set (R30). -/
theorem execWith_keeps_armed {c : Config} {i : Instr} {s t : State} (hs : s.armed = true) (h : execWith c i s = .next t) :
    t.armed = true := by
  obtain ⟨-, -, -, -, -, harmed, -⟩ := eachRegisterHasItsWriters c i s t h
  by_contra hne
  obtain ⟨-, hoff, -⟩ := harmed fun heq => hne (heq.trans hs)
  simp [hs] at hoff

/-- Only an `EDGE` writes `STATE` (R21). -/
theorem execWith_keeps_stateReg {c : Config} {i : Instr} {s t : State} (h : execWith c i s = .next t)
    (he : isEdge i = false) : t.stateReg = s.stateReg := by
  obtain ⟨u, hu, hreg⟩ := execWith_not_edge (c := c) he s
  rw [hu] at h
  cases h
  exact hreg

/-- The polling context issues neither `EDGE` nor `DETENT` (R161). -/
theorem not_edge_of_issuer_poll {i : Instr} (h : issuer i = some .poll) : isEdge i = false ∧ isDetent i = false := by
  cases i with
  | edge _ _ => simp [issuer] at h
  | detent _ _ => simp [issuer] at h
  | _ => exact ⟨rfl, rfl⟩

/-- The interrupt context issues `EDGE` and, inside it, `DETENT` (R161). -/
theorem eq_edge_or_detent_of_issuer_irq {i : Instr} (h : issuer i = some .irq) :
    (∃ x now, i = .edge x now) ∨ ∃ d now, i = .detent d now := by
  cases i with
  | edge x now => exact .inl ⟨x, now, rfl⟩
  | detent d now => exact .inr ⟨d, now, rfl⟩
  | _ => simp [issuer] at h

/-- Nobody issues the reserved code, and every operation has an issuer (R161). -/
theorem eq_reserved_of_issuer_none {i : Instr} (h : issuer i = none) : i = .reserved := by
  cases i with
  | reserved => rfl
  | _ => simp [issuer] at h

/-- The interrupt context keeps `VS_EN`, `MULT` and `ARMED` (R33). -/
theorem execWith_irq_frame {c : Config} {i : Instr} {s t : State} (hi : issuer i = some .irq)
    (h : execWith c i s = .next t) : t.vsEn = s.vsEn ∧ t.mult = s.mult ∧ t.armed = s.armed := by
  obtain ⟨x, now, rfl⟩ | ⟨d, now, rfl⟩ := eq_edge_or_detent_of_issuer_irq hi <;> cases performs_of_execWith h <;> simp

/-- Settles O53: by the operations of each context and what these keep. -/
theorem contextsKeepToTheirRegisters : Obligations.ContextsKeepToTheirRegisters := by
  intro c i s t h
  refine ⟨fun hpoll => ?_, fun hirq => execWith_irq_frame hirq h, fun hnone => ?_⟩
  · obtain ⟨hedge, hdetent⟩ := not_edge_of_issuer_poll hpoll
    exact ⟨execWith_keeps_stateReg h hedge, execWith_keeps_lastTs h hedge hdetent⟩
  · obtain rfl := eq_reserved_of_issuer_none hnone
    cases h
    exact ⟨rfl, rfl, rfl, rfl, rfl, rfl⟩

/-- Settles O54: the three cases of `Performs` that decline; the others yield another result. -/
theorem refusedOperationsChangeNoRegister : Obligations.RefusedOperationsChangeNoRegister := by
  intro c i s t why h hres
  cases performs_of_execWith h with
  | setMultDeclined m hm =>
    obtain rfl : Declined.notANumber = why := by simpa using hres
    exact ⟨⟨rfl, rfl, rfl, rfl, rfl, rfl⟩, m, rfl, hm⟩
  | initDeclined ha =>
    obtain rfl : Declined.secondInit = why := by simpa using hres
    exact ⟨⟨rfl, rfl, rfl, rfl, rfl, rfl⟩, rfl, ha⟩
  | reserved =>
    obtain rfl : Declined.reservedOpCode = why := by simpa using hres
    exact ⟨⟨rfl, rfl, rfl, rfl, rfl, rfl⟩, rfl⟩
  | _ => simp at hres

end Sys2Proof.Machine

/-! ### Steps of the machine (00_scope.md R12, 20_memory.md R47) -/

namespace Sys2Proof.Machine

section Steps

variable {ex : Instr → State → Host.Outcome State Fault Refusal} {s : State}

/-- With nothing issued the block stays as it is (log entry 4). -/
theorem performNext_of_nil (h : s.pending = []) : performNext ex s = .next s := by simp [performNext, h]

/-- The next issued command is performed on the state with that command taken off the list. -/
theorem performNext_of_cons {cmd : Command} {rest : List Command} (h : s.pending = cmd :: rest) :
    performNext ex s = ex (commandInstr cmd) (setPending s rest) := by simp [performNext, h]

end Steps

/-- Settles O5: the two cases of `performNext`, for either form of command. -/
theorem stepPerformsTheNextCommand : Obligations.StepPerformsTheNextCommand :=
  fun _ _ => ⟨fun _ h => performNext_of_cons h, fun _ h => performNext_of_cons h, performNext_of_nil⟩

/-- A number the decoder reads is the command word of its 37 bits (R68, R72). -/
theorem decode_of_decodeTableWord {nbits w : Nat} {i : Instr} (h : decodeTableWord nbits w = some i) :
    decode (BitVec.ofNat 37 w) = i := by
  by_cases hw : w < 2 ^ 37
  · rw [decodeTableWord, decodeNumber, if_pos hw] at h
    exact Option.some.inj h
  · rw [decodeTableWord, decodeNumber, if_neg hw] at h
    cases h

/-- Settles O6: the issued word is first on the list, and taking it off gives the state before it was issued. -/
theorem issuedWordIsRunNext : Obligations.IssuedWordIsRunNext := by
  intro s nbits w i h
  have hpending : (s.withFetchWord nbits w).pending = .word (BitVec.ofNat 37 w) :: s.pending := rfl
  rw [step, performNext_of_cons hpending, commandInstr, decode_of_decodeTableWord h, State.withFetchWord,
    setPending_setPending, setPending_self]

/-- A step that answers a next state is followed by the rest of the run. -/
theorem core_run_of_next {s t : State} (h : step s = .next t) (k : Nat) : core.run (k + 1) s = core.run k t := by
  simp only [Host.Core.run, show core.step s = .next t from h]

/-- A fault ends the run. -/
theorem core_run_of_fault {s : State} {r : Fault} (h : step s = .fault r) (k : Nat) : core.run (k + 1) s = .fault r := by
  simp only [Host.Core.run, show core.step s = .fault r from h]

/-- So does a refusal. -/
theorem core_run_of_refused {s : State} {r : Refusal} (h : step s = .refused r) (k : Nat) :
    core.run (k + 1) s = .refused r := by
  simp only [Host.Core.run, show core.step s = .refused r from h]

/-- A fault ends a trace. -/
theorem runTrace_cons_fault {c : Config} {i : Instr} {s : State} {r : Fault} (h : execWith c i s = .fault r)
    (is : List Instr) : runTrace c (i :: is) s = .fault r := by simp [runTrace, h]

/-- So does a refusal. -/
theorem runTrace_cons_refused {c : Config} {i : Instr} {s : State} {r : Refusal} (h : execWith c i s = .refused r)
    (is : List Instr) : runTrace c (i :: is) s = .refused r := by simp [runTrace, h]

/-- As many steps as commands are issued are the trace of these commands, run with nothing issued. -/
theorem core_run_eq_runTrace (p : List Command) {s : State} (hp : s.pending = p) :
    core.run p.length s = runTrace built (p.map commandInstr) (setPending s []) := by
  induction p generalizing s with
  | nil =>
    have hs : setPending s [] = s := by rw [← hp, setPending_self]
    rw [hs]
    rfl
  | cons cmd rest ih =>
    have hstep : step s = execWith built (commandInstr cmd) (setPending s rest) := by
      rw [step_eq_stepWith]
      exact performNext_of_cons hp
    have htrace := execWith_setPending built (commandInstr cmd) (setPending s rest) []
    rw [setPending_setPending] at htrace
    rw [List.length_cons, List.map_cons]
    cases hex : execWith built (commandInstr cmd) (setPending s rest) with
    | next t =>
      rw [hex] at hstep htrace
      rw [core_run_of_next hstep, runTrace_cons htrace]
      exact ih (execWith_frame hex).1
    | fault r =>
      rw [hex] at hstep htrace
      exact (core_run_of_fault hstep _).trans (runTrace_cons_fault htrace _).symm
    | refused r =>
      rw [hex] at hstep htrace
      exact (core_run_of_refused hstep _).trans (runTrace_cons_refused htrace _).symm

/-- Settles O7: by induction on the issued commands, since no operation looks at what is issued after it. -/
theorem runOfTheMachineIsTheTrace : Obligations.RunOfTheMachineIsTheTrace := fun _ => core_run_eq_runTrace _ rfl

/-! ### The register invariant and the values after reset (10_state.md R34, R35) -/

/-- Settles O8: `STATE` is 0 after reset. -/
theorem resetMeetsTheInvariant : Obligations.ResetMeetsTheInvariant := by
  intro m
  cases m <;> decide

/-- Settles O9: each register at its reset value, by evaluation. -/
theorem resetHoldsTheListedValues : Obligations.ResetHoldsTheListedValues :=
  ⟨⟨rfl, rfl, rfl, rfl, rfl, rfl⟩, fun _ => ⟨rfl, rfl, rfl, rfl, rfl, rfl⟩⟩

/-- The row is read off `STATE` alone (R21). -/
theorem rowOf_congr {s t : State} (h : t.stateReg = s.stateReg) : rowOf t = rowOf s := by rw [rowOf, h, rowOf]

/-- The invariant speaks of `STATE` alone. -/
theorem regInv_congr {c : Config} {s t : State} (h : t.stateReg = s.stateReg) (hs : RegInv c s) : RegInv c t := by
  simpa only [RegInv, rowOf_congr h, dirOf, h] using hs

/-- A byte whose high nibble is 0, 1 or 2 has its two top bits clear and the direction bits not both set. -/
theorem dirBits_of_highNibble_lt {e : Byte} (h : (e.extractLsb' 4 4).toNat < 3) :
    e.extractLsb' 6 2 = 0#2 ∧ e.extractLsb' 4 2 ≠ 3#2 := by
  decide +revert

/-- An entry of a table the spec admits meets the invariant when it is stored in `STATE` (R66, R81). -/
theorem regInv_edgeWithEntry {c : Config} (hw : c.tableWf = true) (ht : c.tableTidy = true) {s : State} {x : Sample} {e : Byte}
    (hr : rowOf s < c.mode.rows) (he : tableEntry c (rowOf s) x = some e) (now : Word) : RegInv c (edgeWithEntry c e now s) := by
  obtain ⟨e', he', hnext⟩ := tableEntry_of_wf hw hr x
  obtain rfl : e' = e := Option.some.inj (he'.symm.trans he)
  obtain ⟨htop, hdir⟩ := dirBits_of_highNibble_lt (highNibble_lt_of_tidy ht he)
  exact ⟨by rwa [rowOf_edgeWithEntry], by rwa [edgeWithEntry_stateReg], by rwa [dirOf, edgeWithEntry_stateReg]⟩

/-- Every operation keeps the invariant: only an armed `EDGE` writes `STATE`, and it stores an entry of the table. -/
theorem execWith_keeps_regInv {c : Config} (hw : c.tableWf = true) (ht : c.tableTidy = true) {i : Instr} {s t : State}
    (hs : RegInv c s) (h : execWith c i s = .next t) : RegInv c t := by
  cases performs_of_execWith h with
  | edge x now e ha he => exact regInv_edgeWithEntry hw ht hs.1 he now
  | _ => exact regInv_congr rfl hs

/-- Every step keeps the invariant. -/
theorem stepWith_keeps_regInv {c : Config} (hw : c.tableWf = true) (ht : c.tableTidy = true) {s t : State}
    (hs : RegInv c s) (h : stepWith c s = .next t) : RegInv c t := by
  cases hp : s.pending with
  | nil =>
    rw [stepWith, performNext_of_nil hp] at h
    cases h
    exact hs
  | cons cmd rest =>
    rw [stepWith, performNext_of_cons hp] at h
    exact execWith_keeps_regInv hw ht (regInv_congr (setPending_stateReg s rest) hs) h

/-- Settles O10: the step lemma, whose table conditions this hardware meets. -/
theorem everyStepKeepsTheInvariant : Obligations.EveryStepKeepsTheInvariant := by
  refine ⟨fun c s t hw ht => stepWith_keeps_regInv hw ht, fun s t hs h => ?_⟩
  rw [step_eq_stepWith] at h
  exact stepWith_keeps_regInv (configOf_tableWf .half) (configOf_tableTidy .half) hs h

/-- An operation from a row the table has answers a next state. -/
theorem execWith_next_of_row {c : Config} (hw : c.tableWf = true) {s : State} (hr : rowOf s < c.mode.rows) (i : Instr) :
    ∃ t, execWith c i s = .next t := by
  cases i with
  | edge x now =>
    obtain ⟨e, he, -⟩ := tableEntry_of_wf hw hr x
    cases ha : s.armed with
    | false => exact ⟨s, execWith_eq_next_iff.mpr (.edgeUnarmed x now ha)⟩
    | true => exact ⟨_, execWith_edge_of_entry ha he now⟩
  | _ => exact (execWith_not_edge rfl s).imp fun _ => And.left

/-- A step from a row the table has answers a next state. -/
theorem stepWith_next_of_row {c : Config} (hw : c.tableWf = true) {s : State} (hr : rowOf s < c.mode.rows) :
    ∃ t, stepWith c s = .next t := by
  cases hp : s.pending with
  | nil => exact ⟨s, performNext_of_nil hp⟩
  | cons cmd rest =>
    rw [stepWith, performNext_of_cons hp]
    exact execWith_next_of_row hw (s := setPending s rest) hr _

/-- Settles O11: an `EDGE` finds an entry in every row of the table, and no other operation can fail. -/
theorem noStepFailsUnderTheInvariant : Obligations.NoStepFailsUnderTheInvariant := by
  refine ⟨fun s hs => ?_, fun c s hw hr => stepWith_next_of_row hw hr⟩
  rw [step_eq_stepWith]
  exact stepWith_next_of_row (configOf_tableWf .half) hs.1

/-- Settles O56: each constant of `built` by evaluation. -/
theorem builtInstanceHoldsTheListedConstants : Obligations.BuiltInstanceHoldsTheListedConstants :=
  ⟨rfl, rfl, rfl, rfl, rfl, rfl, rfl, rfl, rfl, rfl, rfl⟩

end Sys2Proof.Machine

/-! ### The decoder: one `EDGE` (40_decoder.md R81, 10_state.md R35) -/

namespace Sys2Proof.Machine

/-- The handler's work written out by the high nibble of the entry (R61, R81). -/
theorem edgeWithEntry_eq_ite (c : Config) (e : Byte) (now : Word) (s : State) :
    edgeWithEntry c e now s =
      if e.extractLsb' 4 4 = 0x1#4 then yieldResult (applyDetent c .cw now (setStateReg s e)) (.event .cw)
      else if e.extractLsb' 4 4 = 0x2#4 then yieldResult (applyDetent c .ccw now (setStateReg s e)) (.event .ccw)
      else yieldResult (setStateReg s e) (.event .none) := by
  by_cases h1 : e.extractLsb' 4 4 = 0x1#4
  · simp [edgeWithEntry, entryEvent, cwNibble, h1]
  · by_cases h2 : e.extractLsb' 4 4 = 0x2#4 <;> simp [edgeWithEntry, entryEvent, cwNibble, ccwNibble, h1, h2]

/-- An `EDGE` before `INIT` does not occur (R173, log entry 5). -/
theorem execWith_edge_unarmed {c : Config} {s : State} (ha : s.armed = false) (x : Sample) (now : Word) :
    execWith c (.edge x now) s = .next s :=
  execWith_eq_next_iff.mpr (.edgeUnarmed x now ha)

/-- Settles O12: `Performs` has the two ways an `EDGE` completes, and the table of this hardware has an entry in every row. -/
theorem edgeLooksUpStoresAndEmits : Obligations.EdgeLooksUpStoresAndEmits := by
  unfold Obligations.EdgeLooksUpStoresAndEmits
  intro after s x now
  have edge {c : Config} {e : Byte} (ha : s.armed = true) (he : tableEntry c (rowOf s) x = some e) :
      execWith c (.edge x now) s = .next (after c s now e) := by
    rw [execWith_edge_of_entry ha he, edgeWithEntry_eq_ite]
  refine ⟨fun ha => ?unarmed, fun ha hr => ?armed, fun ha hs => ?rule, fun c => ⟨fun ha => ?_, fun e ha he => edge ha he⟩⟩
  case unarmed =>
    rw [exec_eq_execWith]
    exact execWith_edge_unarmed ha x now
  case armed =>
    obtain ⟨e, he, -⟩ := tableEntry_of_wf (configOf_tableWf .half) hr x
    refine ⟨e, he, ?_⟩
    rw [exec_eq_execWith]
    exact edge ha he
  case rule =>
    have he : tableEntry built (rowOf s) 0#2 = some 0x13#8 := by
      rw [rowOf, hs]
      rfl
    rw [exec_eq_execWith, execWith_edge_of_entry ha he]
    rfl
  exact execWith_edge_unarmed ha x now

/-- Settles O13: the table of this hardware has 6 rows. -/
theorem edgeOutsideTheTableFaults : Obligations.EdgeOutsideTheTableFaults := by
  intro s x now ha hr
  rw [exec_eq_execWith, execWith_eq_fault_iff]
  exact ⟨ha, x, now, rfl, (tableEntry_eq_none_iff _ _ _).mpr hr⟩

/-- The columns of a row are its entries in order (R41). -/
theorem entries_getElem? (row : Row) (x : Sample) : row.entries[x.toNat]? = some (rowAt row x) := by
  have hx : x = 0#2 ∨ x = 1#2 ∨ x = 2#2 ∨ x = 3#2 := by decide +revert
  obtain rfl | rfl | rfl | rfl := hx <;> rfl

/-- In rows laid out one after the other, column `x` of row `r` is at offset `4*r + x` (R41). -/
theorem flatMap_entries_getElem? (rows : List Row) (r : Nat) (x : Sample) (hr : r < rows.length) :
    (rows.flatMap Row.entries)[4 * r + x.toNat]? = (rows[r]?).map fun row => rowAt row x := by
  have hx : x.toNat < 4 := x.isLt
  induction rows generalizing r with
  | nil => simp at hr
  | cons row rows ih =>
    have hlen : row.entries.length = 4 := rfl
    rw [List.flatMap_cons]
    cases r with
    | zero => rw [Nat.mul_zero, Nat.zero_add, List.getElem?_append_left (by omega), entries_getElem?]; rfl
    | succ r =>
      rw [List.getElem?_append_right (by omega), hlen, show 4 * (r + 1) + x.toNat - 4 = 4 * r + x.toNat by omega]
      exact ih r (by simpa using hr)

/-- Settles O17: by induction on the rows, four entries each. -/
theorem flatTableHoldsTheEntryAtFourRowsPlusColumn : Obligations.FlatTableHoldsTheEntryAtFourRowsPlusColumn :=
  fun c r x hr => flatMap_entries_getElem? c.table r x hr

/-- An armed `EDGE` from a row of an admitted table completes and leaves the entry of its row and sample in `STATE`. -/
theorem execWith_edge_stores {c : Config} (hw : c.tableWf = true) {s : State} (ha : s.armed = true)
    (hr : rowOf s < c.mode.rows) (x : Sample) (now : Word) :
    ∃ t, execWith c (.edge x now) s = .next t ∧ tableEntry c (rowOf s) x = some t.stateReg := by
  obtain ⟨e, he, -⟩ := tableEntry_of_wf hw hr x
  exact ⟨_, execWith_edge_of_entry ha he now, by rw [he, edgeWithEntry_stateReg]⟩

/-- The rows written as lists of their entries hold the table's entries. -/
theorem map_entries_bind_getElem? (c : Config) (r : Nat) (x : Sample) :
    ((c.table.map Row.entries)[r]?).bind (fun row => row[x.toNat]?) = tableEntry c r x := by
  cases h : c.table[r]? <;> simp [tableEntry, h, entries_getElem?]

/-- Settles O55: the printed lists are the rows of the two tables, and `EDGE` stores the entry it looks up. -/
theorem edgeStoresThePrintedTableEntry : Obligations.EdgeStoresThePrintedTableEntry := by
  unfold Obligations.EdgeStoresThePrintedTableEntry
  intro half full entry s x now ha
  have hhalf : half = built.table.map Row.entries := rfl
  have hfull : full = (configOf .full).table.map Row.entries := rfl
  refine ⟨fun hr => ?_, fun hr => ?_⟩
  · obtain ⟨t, ht, he⟩ := execWith_edge_stores (configOf_tableWf .half) ha hr x now
    rw [exec_eq_execWith, hhalf]
    exact ⟨t, ht, (map_entries_bind_getElem? built _ x).trans he⟩
  · obtain ⟨t, ht, he⟩ := execWith_edge_stores (configOf_tableWf .full) ha hr x now
    rw [hfull]
    exact ⟨t, ht, (map_entries_bind_getElem? (configOf .full) _ x).trans he⟩

/-! ### The decoder: the tables as a transition system (40_decoder.md section 2) -/

/-- An armed `EDGE` that completes did the pure transition of its row and sample (R82): the row it enters, the event it yields,
and no change of `COUNT` and `LAST_TS` without an event (R83). -/
theorem execWith_edge_transition {c : Config} {s t : State} {x : Sample} {now : Word} (ha : s.armed = true)
    (h : execWith c (.edge x now) s = .next t) :
    ∃ p ∈ transition c (rowOf s) x, rowOf t = p.1 ∧ t.results = s.results ++ [.event p.2] ∧
      (p.2 = .none → t.count = s.count ∧ t.lastTs = s.lastTs) := by
  obtain ⟨e, he, rfl⟩ := execWith_edge_next ha h
  refine ⟨(entryNext e, entryEvent e), transition_of_entry he, rowOf_edgeWithEntry .., edgeWithEntry_results .., fun hn => ?_⟩
  obtain ⟨-, hcount, hts⟩ | ⟨d, hd, -⟩ := edgeWithEntry_cases c e now s
  · exact ⟨hcount, hts⟩
  · rw [show entryEvent e = .none from hn] at hd
    cases hd

/-- The samples a row is entered on, by the enumeration of 40_decoder.md section 2. -/
def enteredOn : Mode → Nat → List Sample
  | .half, 0 => [1#2, 2#2, 3#2]
  | .half, 1 => [2#2]
  | .half, 2 => [1#2]
  | .half, 3 => [0#2, 1#2, 2#2]
  | .half, 4 => [2#2]
  | .half, 5 => [1#2]
  | .full, 0 => [0#2, 1#2, 2#2, 3#2]
  | .full, 1 => [2#2]
  | .full, 2 => [1#2]
  | .full, 3 => [0#2]
  | .full, 4 => [2#2]
  | .full, 5 => [1#2]
  | .full, 6 => [0#2]
  | _, _ => []

/-- The rows of both tables are entered on these samples only. -/
theorem transition_enteredOn (m : Mode) : ∀ r, r < m.rows → ∀ x : Sample, ∀ p ∈ transition (configOf m) r x,
    x ∈ enteredOn m p.1 ∧ p.1 < m.rows := by
  cases m <;> decide

/-- Settles O18: by the samples each row is entered on. -/
theorem rowsAreEnteredOnFixedSamples : Obligations.RowsAreEnteredOnFixedSamples := by
  intro m s t x now ha hr h
  obtain ⟨p, hp, hrow, -⟩ := execWith_edge_transition ha h
  obtain ⟨hmem, hlt⟩ := transition_enteredOn m _ hr x p hp
  rw [← hrow] at hmem hlt
  have entered {r : Nat} (hrt : rowOf t = r) : x ∈ enteredOn m r := hrt ▸ hmem
  cases m with
  | half =>
    refine ⟨fun h0 => ?_, fun h1 => ?_, fun h2 => ?_, fun h3 => ?_, fun h4 => ?_, fun h5 => ?_, hlt⟩
    · rintro rfl; simpa [enteredOn] using entered h0
    · simpa [enteredOn] using entered h1
    · simpa [enteredOn] using entered h2
    · rintro rfl; simpa [enteredOn] using entered h3
    · simpa [enteredOn] using entered h4
    · simpa [enteredOn] using entered h5
  | full =>
    refine ⟨fun h1 => ?_, fun h2 => ?_, fun h3 => ?_, fun h4 => ?_, fun h5 => ?_, fun h6 => ?_, hlt⟩
    · simpa [enteredOn] using entered h1
    · simpa [enteredOn] using entered h2
    · simpa [enteredOn] using entered h3
    · simpa [enteredOn] using entered h4
    · simpa [enteredOn] using entered h5
    · simpa [enteredOn] using entered h6

/-- Column 3 of both tables leads to row 0. -/
theorem transition_sample_three (m : Mode) :
    ∀ r, r < m.rows → ∀ p ∈ transition (configOf m) r 3#2, p.1 = 0 := by
  cases m <;> decide

/-- Settles O19: by column 3 of the tables. -/
theorem sampleThreeReturnsToRest : Obligations.SampleThreeReturnsToRest := by
  intro m s now ha hr
  obtain ⟨t, ht, -⟩ := execWith_edge_stores (configOf_tableWf m) ha hr 3#2 now
  obtain ⟨p, hp, hrow, -⟩ := execWith_edge_transition ha ht
  exact ⟨t, ht, hrow.trans (transition_sample_three m _ hr p hp)⟩

/-- A trace without `EDGE`s keeps `STATE` (R21). -/
theorem runTrace_keeps_stateReg {c : Config} {is : List Instr} {s u : State} (his : ∀ i ∈ is, isEdge i = false)
    (h : runTrace c is s = .next u) : u.stateReg = s.stateReg := by
  induction is generalizing s with
  | nil => cases h; rfl
  | cons i is ih =>
    obtain ⟨hi, hrest⟩ := List.forall_mem_cons.mp his
    obtain ⟨t, ht, hu⟩ := runTrace_cons_next h
    rw [ih hrest hu, execWith_keeps_stateReg ht hi]

/-- An `EDGE` and operations other than `EDGE` after it leave the row that the transition enters, and the block armed. -/
theorem runTrace_edge_then_others {c : Config} {s u : State} {x : Sample} {now : Word} {mid : List Instr}
    (ha : s.armed = true) (hmid : ∀ i ∈ mid, isEdge i = false) (h : runTrace c (.edge x now :: mid) s = .next u) :
    u.armed = true ∧ ∃ p ∈ transition c (rowOf s) x, rowOf u = p.1 := by
  obtain ⟨r, hr, hu⟩ := runTrace_cons_next h
  obtain ⟨p, hp, hrow, -⟩ := execWith_edge_transition ha hr
  have har : r.armed = true := execWith_keeps_armed ha hr
  refine ⟨runTrace_keeps (fun i v w => execWith_keeps_armed) mid har hu, p, hp, ?_⟩
  rw [← hrow, rowOf_congr (runTrace_keeps_stateReg hmid hu)]

/-- The row after a repeated sample: the same but for the six fall-back cases of 40_decoder.md section 2. -/
def rowAfterRepeat : Mode → Nat → Nat → Nat
  | .half, 0, 1 => 2
  | .half, 0, 2 => 1
  | .half, 3, 1 => 5
  | .half, 3, 2 => 4
  | .full, 0, 1 => 2
  | .full, 0, 2 => 4
  | _, r, _ => r

/-- In both tables a repeated sample emits nothing and leads to the row listed. -/
theorem transition_repeated_sample (m : Mode) : ∀ r, r < m.rows → ∀ x : Sample, ∀ p ∈ transition (configOf m) r x,
    ∀ q ∈ transition (configOf m) p.1 x, q.2 = .none ∧ q.1 = rowAfterRepeat m p.1 x.toNat := by
  cases m <;> decide

/-- Settles O20: the operations between keep the row, and from a row entered on a sample the tables list what the same sample
does again. -/
theorem repeatedSampleKeepsTheRowButForSixCases : Obligations.RepeatedSampleKeepsTheRowButForSixCases := by
  intro m s u t x now1 now2 mid ha hr hmid hu ht
  obtain ⟨hau, p, hp, hrow⟩ := runTrace_edge_then_others ha hmid hu
  obtain ⟨q, hq, hrowt, hres, -⟩ := execWith_edge_transition hau ht
  rw [hrow] at hq ⊢
  obtain ⟨hnone, hnext⟩ := transition_repeated_sample m _ hr x p hp q hq
  rw [hrowt, hnext, hres, hnone]
  exact ⟨rfl, rfl⟩

/-- In both tables a row entered on a sample emits nothing on that sample, on its double transition, or if it is row 0. -/
theorem transition_emits_on_single_change (m : Mode) : ∀ r, r < m.rows → ∀ x y : Sample,
    ∀ p ∈ transition (configOf m) r x, ∀ q ∈ transition (configOf m) p.1 y, y = x ∨ y = x ^^^ 3#2 ∨ p.1 = 0 → q.2 = .none := by
  cases m <;> decide

/-- Row 0 emits nothing in either table. -/
theorem transition_row_zero (m : Mode) : ∀ x : Sample, ∀ p ∈ transition (configOf m) 0 x, p.2 = .none := by
  cases m <;> decide

/-- An armed `EDGE` whose transition has no event yields `none` and keeps `COUNT` and `LAST_TS`. -/
theorem execWith_edge_without_event {c : Config} {s t : State} {x : Sample} {now : Word} (ha : s.armed = true)
    (h : execWith c (.edge x now) s = .next t) (hn : ∀ p ∈ transition c (rowOf s) x, p.2 = .none) :
    t.results = s.results ++ [.event .none] ∧ t.count = s.count ∧ t.lastTs = s.lastTs := by
  obtain ⟨p, hp, -, hres, hframe⟩ := execWith_edge_transition ha h
  rw [hn p hp] at hres
  exact ⟨hres, hframe (hn p hp)⟩

/-- Settles O21: the operations between keep the row, and the tables emit only on a single-channel change, and not from
row 0. -/
theorem onlyASingleChannelChangeEmits : Obligations.OnlyASingleChannelChangeEmits := by
  intro m s u t x y now1 now2 mid ha hr hmid hu ht
  obtain ⟨hau, p, hp, hrow⟩ := runTrace_edge_then_others ha hmid hu
  refine ⟨fun hxy => execWith_edge_without_event hau ht fun q hq => ?_, fun r hzero hfirst =>
    execWith_edge_without_event ha hfirst fun q hq => ?_⟩
  · rw [hrow] at hq hxy
    exact transition_emits_on_single_change m _ hr x y p hp q hq hxy
  · rw [hzero] at hq
    exact transition_row_zero m x q hq

/-- The row that samples lead to from row `r` and the events on the way, read off the table alone (R82). -/
def rowAndEventsAfter (c : Config) : List Sample → Nat → Option (Nat × List Event)
  | [], r => some (r, [])
  | x :: xs, r => (transition c r x).bind fun p => (rowAndEventsAfter c xs p.1).map fun q => (q.1, p.2 :: q.2)

/-- In an armed state `EDGE`s at any times lead to this row and yield these events. -/
theorem runTrace_edges_gives {c : Config} (es : List (Sample × Word)) {s : State} {r : Nat} {evs : List Event}
    (ha : s.armed = true) (h : rowAndEventsAfter c (es.map Prod.fst) (rowOf s) = some (r, evs)) :
    ∃ t, runTrace c (es.map fun p => .edge p.1 p.2) s = .next t ∧ rowOf t = r ∧
      t.results = s.results ++ evs.map .event := by
  induction es generalizing s evs with
  | nil =>
    cases h
    exact ⟨s, rfl, rfl, by simp⟩
  | cons p es ih =>
    obtain ⟨x, now⟩ := p
    obtain ⟨q, hq, hrest⟩ := Option.bind_eq_some_iff.mp h
    obtain ⟨⟨r', evs'⟩, hafter, heq⟩ := Option.map_eq_some_iff.mp hrest
    cases heq
    obtain ⟨e, he, rfl⟩ := Option.map_eq_some_iff.mp hq
    obtain ⟨t, ht, hrow, hres⟩ := ih (s := edgeWithEntry c e now s) (evs := evs') (by simp [ha])
      (by rwa [rowOf_edgeWithEntry])
    exact ⟨t, (runTrace_cons (execWith_edge_of_entry ha he now)).trans ht, hrow, by simp [hres]⟩

/-- The events of the clockwise turn in each mode, or of the counter-clockwise one (40_decoder.md section 2). -/
def turnEvents : Mode → Event → List Event
  | .half, ev => [.none, ev, .none, ev]
  | .full, ev => [.none, .none, .none, ev]

/-- Through both tables the samples 1, 0, 2, 3 lead from row 0 to row 0 with the clockwise events. -/
theorem rowAndEventsAfter_cw_turn (m : Mode) :
    rowAndEventsAfter (configOf m) [1#2, 0#2, 2#2, 3#2] 0 = some (0, turnEvents m .cw) := by
  cases m <;> decide

/-- And the samples 2, 0, 1, 3 with the counter-clockwise ones. -/
theorem rowAndEventsAfter_ccw_turn (m : Mode) :
    rowAndEventsAfter (configOf m) [2#2, 0#2, 1#2, 3#2] 0 = some (0, turnEvents m .ccw) := by
  cases m <;> decide

/-- Settles O22: the two turns through each table. -/
theorem idealTurnsGiveTheListedEvents : Obligations.IdealTurnsGiveTheListedEvents := by
  intro m s a b c d ha hr turn
  have hcw := runTrace_edges_gives (c := configOf m) [(1#2, a), (0#2, b), (2#2, c), (3#2, d)] ha
    (by rw [hr]; exact rowAndEventsAfter_cw_turn m)
  have hccw := runTrace_edges_gives (c := configOf m) [(2#2, a), (0#2, b), (1#2, c), (3#2, d)] ha
    (by rw [hr]; exact rowAndEventsAfter_ccw_turn m)
  cases m with
  | half => exact ⟨hcw, hccw⟩
  | full => exact ⟨hcw, hccw⟩

end Sys2Proof.Machine

/-! ### The accumulator: the interval and the step (41_accumulator.md R101 to R105) -/

namespace Sys2Proof.Machine

/-- The interval on the two register values read as numbers (R101). -/
theorem dtTicks_eq (s : State) (now : Word) : dtTicks s now = (2 ^ 32 - s.lastTs.toNat + now.toNat) % 2 ^ 32 :=
  BitVec.toNat_sub now s.lastTs

/-- Settles O28: the subtraction of bit vectors is the one modulo 2^32. -/
theorem intervalIsTheModularDifference : Obligations.IntervalIsTheModularDifference := by
  intro s now
  have hlast := s.lastTs.isLt
  have hnow := now.isLt
  refine ⟨?_, fun n hn => ?_, fun hback => ?_⟩
  · rw [dtTicks_eq, umodInt]
    omega
  · have hadd : now.toNat = (s.lastTs.toNat + n % 2 ^ 32) % 2 ^ 32 := by rw [hn, BitVec.toNat_add, BitVec.toNat_ofNat]
    rw [dtTicks_eq]
    omega
  · rw [dtTicks_eq]
    omega

/-- With variable speed off the step is 1 (R105). -/
theorem stepSize_of_off (c : Config) {s : State} (h : s.vsEn = false) (dir : Direction) (now : Word) :
    stepSize c s dir now = 1 := by simp [stepSize, h]

/-- With variable speed on it is the computed one (R105). -/
theorem stepSize_of_on (c : Config) {s : State} (h : s.vsEn = true) (dir : Direction) (now : Word) :
    stepSize c s dir now = variableStep c dir (dtTicks s now) s.mult := by simp [stepSize, h]

/-- `DETENT` on this hardware (R100). -/
theorem exec_detent (dir : Direction) (now : Word) (s : State) :
    exec (.detent dir now) s = .next (yieldResult (applyDetent built dir now s) .nothing) := by
  rw [exec_eq_execWith, execWith_detent]

/-- Settles O25: the updates of `applyDetent`, and the wrap of the sum. -/
theorem detentAddsTheSignedStepAndRecordsTheTime : Obligations.DetentAddsTheSignedStepAndRecordsTheTime := by
  intro s dir now
  refine ⟨_, exec_detent dir now s, rfl, ?_⟩
  rw [yieldResult_count, applyDetent_count, wrapWord_toInt]
  cases dir <;> rfl

/-- An addition wrapped into the register is the addition of the register type. -/
theorem wrapWord_toInt_add (w : Word) (x : Int) : wrapWord (w.toInt + x) = w + BitVec.ofInt 32 x := by
  rw [wrapWord, BitVec.ofInt_add, BitVec.ofInt_toInt]

/-- Settles O27: the two values of the flag, and a step of 1 added or subtracted. -/
theorem stepIsOneWhenVariableSpeedIsOff : Obligations.StepIsOneWhenVariableSpeedIsOff := by
  refine fun c s dir now => ⟨fun h => stepSize_of_off c h dir now, fun h => stepSize_of_on c h dir now, fun h => ?_⟩
  refine ⟨_, execWith_detent c dir now s, ?_⟩
  rw [yieldResult_count, applyDetent_count, wrapWord_toInt_add, detentDelta, stepSize_of_off c h]
  cases dir with
  | cw => rfl
  | ccw => rw [BitVec.sub_eq_add_neg]; rfl

/-! ### The accumulator: the step as clamped and rounded (R104) -/

section Clamp

variable {x lo hi : Rat}

theorem clampQ_of_le_lo (h : lo ≤ hi) (hx : x ≤ lo) : clampQ x lo hi = lo := by
  rw [clampQ, max_eq_right hx, min_eq_left h]

theorem clampQ_of_hi_le (h : lo ≤ hi) (hx : hi ≤ x) : clampQ x lo hi = hi := by
  rw [clampQ, max_eq_left (h.trans hx), min_eq_right hx]

theorem clampQ_of_mem (hlo : lo ≤ x) (hhi : x ≤ hi) : clampQ x lo hi = x := by
  rw [clampQ, max_eq_left hlo, min_eq_left hhi]

/-- The clamp by cases. -/
theorem clampQ_eq_ite (h : lo ≤ hi) : clampQ x lo hi = if x ≤ lo then lo else if hi ≤ x then hi else x := by
  split_ifs with h1 h2
  · exact clampQ_of_le_lo h h1
  · exact clampQ_of_hi_le h h2
  · exact clampQ_of_mem (not_le.mp h1).le (not_le.mp h2).le

end Clamp

/-- The step of either mode, on the curves of this hardware (R92, R101 to R104). -/
theorem variableStep_configOf_eq (m : Mode) (dir : Direction) (ticks : Nat) (mult : Rat) :
    variableStep (configOf m) dir ticks mult =
      roundHalfUp (clampQ (interpolateQ (curveFor built dir) ((ticks : Rat) / 1000) * mult) 1 100) := by
  rw [variableStep_configOf]
  cases dir <;> rfl

/-- The step of this hardware. -/
theorem variableStep_built (dir : Direction) (ticks : Nat) (mult : Rat) :
    variableStep built dir ticks mult =
      roundHalfUp (clampQ (interpolateQ (curveFor built dir) ((ticks : Rat) / 1000) * mult) 1 100) :=
  variableStep_configOf_eq .half dir ticks mult

/-- Settles O30: the rounding is within one half of the clamped value, and the clamp is by cases. -/
theorem stepIsTheRoundedClampedScaledCurve : Obligations.StepIsTheRoundedClampedScaledCurve := by
  intro m dir ticks mult scaled clamped
  have hclamp : clampQ scaled 1 100 = clamped := clampQ_eq_ite (by norm_num)
  rw [← hclamp, ← roundHalfUp_eq_iff, ← variableStep_configOf_eq]

/-- In every state the step is from 1 to 100 (R104, R105). -/
theorem stepSize_mem (m : Mode) (s : State) (dir : Direction) (now : Word) :
    1 ≤ stepSize (configOf m) s dir now ∧ stepSize (configOf m) s dir now ≤ 100 := by
  cases h : s.vsEn with
  | false => rw [stepSize_of_off _ h]; norm_num
  | true => rw [stepSize_of_on _ h]; exact variableStep_mem m dir _ _

/-- A detent adds or subtracts 1 to 100. -/
theorem natAbs_detentDelta_mem (m : Mode) (s : State) (dir : Direction) (now : Word) :
    1 ≤ (detentDelta (configOf m) s dir now).natAbs ∧ (detentDelta (configOf m) s dir now).natAbs ≤ 100 := by
  have hstep := stepSize_mem m s dir now
  cases dir <;> simp only [detentDelta, signedBy] <;> omega

/-- Adding less than a whole turn of the counter, and not 0, changes it. -/
theorem wrapWord_toInt_add_ne {w : Word} {x : Int} (h0 : 1 ≤ x.natAbs) (h1 : x.natAbs ≤ 100) :
    wrapWord (w.toInt + x) ≠ w := by
  intro heq
  have hmod := wrapWord_toInt_emod (w.toInt + x)
  rw [heq] at hmod
  omega

/-- Settles O31: the step is in the clamp range, which is less than a whole turn of `COUNT`. -/
theorem stepIsFromOneToOneHundred : Obligations.StepIsFromOneToOneHundred := by
  intro m s dir now
  obtain ⟨hlo, hhi⟩ := stepSize_mem m s dir now
  refine ⟨hlo, hhi, fun t ht => ?_⟩
  rw [execWith_detent] at ht
  cases ht
  obtain ⟨h0, h1⟩ := natAbs_detentDelta_mem m s dir now
  exact wrapWord_toInt_add_ne h0 h1

/-- The step does not rise with the interval (R103, R109). -/
theorem variableStep_antitone (dir : Direction) {mult : Rat} (hm : 0 ≤ mult) {a b : Nat} (h : a ≤ b) :
    variableStep built dir b mult ≤ variableStep built dir a mult := by
  obtain ⟨hx, hy⟩ := curveFor_built_falls dir
  have hdt : (a : Rat) / 1000 ≤ b / 1000 := by gcongr
  rw [variableStep_built, variableStep_built]
  exact roundHalfUp_mono (clampQ_mono (mul_le_mul_of_nonneg_right (interpolateQ_antitone hx hy hdt) hm))

/-- Settles O32: the raw step falls, and a multiplier of 0 or more, the clamp and the rounding are monotone. -/
theorem longerIntervalNeverGivesALargerStep : Obligations.LongerIntervalNeverGivesALargerStep := by
  intro s dir now1 now2 hm h
  cases hv : s.vsEn with
  | false => rw [stepSize_of_off _ hv, stepSize_of_off _ hv]
  | true =>
    rw [stepSize_of_on _ hv, stepSize_of_on _ hv]
    exact variableStep_antitone dir hm h

/-- Where the scaled value is at most 1 the step is 1. -/
theorem variableStep_eq_one {dir : Direction} {ticks : Nat} {mult : Rat}
    (h : interpolateQ (curveFor built dir) ((ticks : Rat) / 1000) * mult ≤ 1) : variableStep built dir ticks mult = 1 := by
  rw [variableStep_built, clampQ_of_le_lo (by norm_num) h, roundHalfUp_eq_iff]
  norm_num

/-- Where it is at least 100 the step is 100. -/
theorem variableStep_eq_hundred {dir : Direction} {ticks : Nat} {mult : Rat}
    (h : 100 ≤ interpolateQ (curveFor built dir) ((ticks : Rat) / 1000) * mult) :
    variableStep built dir ticks mult = 100 := by
  rw [variableStep_built, clampQ_of_hi_le (by norm_num) h, roundHalfUp_eq_iff]
  norm_num

/-- The raw step is nowhere below 1, and on the decrement curve nowhere below the increment curve (R102). -/
theorem one_le_inc_le_dec (dt : Rat) :
    1 ≤ interpolateQ (curveFor built .cw) dt ∧
      interpolateQ (curveFor built .cw) dt ≤ interpolateQ (curveFor built .ccw) dt := by
  change 1 ≤ interpolateQ incCurve dt ∧ interpolateQ incCurve dt ≤ interpolateQ decCurve dt
  rw [interpolateQ_inc, interpolateQ_dec]
  split_ifs with h1 h2 <;> constructor <;> linarith

theorem one_le_interpolateQ (dir : Direction) (dt : Rat) : 1 ≤ interpolateQ (curveFor built dir) dt := by
  obtain ⟨hinc, hdec⟩ := one_le_inc_le_dec dt
  cases dir with
  | cw => exact hinc
  | ccw => exact hinc.trans hdec

/-- With a multiplier of 0 or less the step is 1 (R114). -/
theorem variableStep_of_mult_nonpos (dir : Direction) (ticks : Nat) {mult : Rat} (hm : mult ≤ 0) :
    variableStep built dir ticks mult = 1 := by
  have hraw := one_le_interpolateQ dir ((ticks : Rat) / 1000)
  have hscaled := mul_nonpos_of_nonneg_of_nonpos (zero_le_one.trans hraw) hm
  exact variableStep_eq_one (hscaled.trans zero_le_one)

/-- The decrement step is at least the increment step (R110). -/
theorem variableStep_cw_le_ccw (ticks : Nat) (mult : Rat) :
    variableStep built .cw ticks mult ≤ variableStep built .ccw ticks mult := by
  obtain hm | hm := le_total mult 0
  · rw [variableStep_of_mult_nonpos _ _ hm, variableStep_of_mult_nonpos _ _ hm]
  · rw [variableStep_built, variableStep_built]
    exact roundHalfUp_mono (clampQ_mono (mul_le_mul_of_nonneg_right (one_le_inc_le_dec _).2 hm))

/-- Settles O33: the decrement curve lies above the increment curve, and a negative multiplier gives 1 on both. -/
theorem decrementStepIsAtLeastTheIncrementStep : Obligations.DecrementStepIsAtLeastTheIncrementStep := by
  intro s now
  cases hv : s.vsEn with
  | false => rw [stepSize_of_off _ hv, stepSize_of_off _ hv]
  | true =>
    rw [stepSize_of_on _ hv, stepSize_of_on _ hv]
    exact variableStep_cw_le_ccw _ _

/-! ### The accumulator: steps at given intervals -/

/-- A scaled value in the clamp range rounds to the nearest integer. -/
theorem variableStep_eq_of_scaled {dir : Direction} {ticks : Nat} {mult x : Rat} {k : Int}
    (h : interpolateQ (curveFor built dir) ((ticks : Rat) / 1000) * mult = x) (h1 : 1 ≤ x) (h100 : x ≤ 100)
    (hlo : (k : Rat) - 1 / 2 ≤ x) (hhi : x < k + 1 / 2) : variableStep built dir ticks mult = k := by
  rw [variableStep_built, h, clampQ_of_mem h1 h100, roundHalfUp_eq_iff]
  exact ⟨hlo, hhi⟩

/-- An interval in ticks against a number of milliseconds. -/
theorem ticks_div_le {ticks ms : Nat} (h : ticks ≤ ms * 1000) : (ticks : Rat) / 1000 ≤ ms := by
  rw [div_le_iff₀ (by norm_num)]
  exact_mod_cast h

theorem le_ticks_div {ticks ms : Nat} (h : ms * 1000 ≤ ticks) : (ms : Rat) ≤ (ticks : Rat) / 1000 := by
  rw [le_div_iff₀ (by norm_num)]
  exact_mod_cast h

/-- The raw steps up to 5 ms (R103). -/
theorem interpolateQ_of_le_5ms {ticks : Nat} (h : ticks ≤ 5000) :
    interpolateQ (curveFor built .cw) ((ticks : Rat) / 1000) = 10 ∧
      interpolateQ (curveFor built .ccw) ((ticks : Rat) / 1000) = 50 := by
  have hdt : (ticks : Rat) / 1000 ≤ 5 := ticks_div_le (ms := 5) h
  exact ⟨interpolateQ_of_le_first hdt, interpolateQ_of_le_first hdt⟩

/-- The raw step from 250 ms on (R103). -/
theorem interpolateQ_of_250ms_le {ticks : Nat} (h : 250000 ≤ ticks) (dir : Direction) :
    interpolateQ (curveFor built dir) ((ticks : Rat) / 1000) = 1 := by
  have hdt : 250 ≤ (ticks : Rat) / 1000 := le_ticks_div (ms := 250) h
  cases dir with
  | cw => exact interpolateQ_of_second_le (curveFor_built_falls .cw).1 hdt
  | ccw => exact interpolateQ_of_second_le (curveFor_built_falls .ccw).1 hdt

/-- The decrement curve at the middle of its range (R103). -/
theorem interpolateQ_dec_midpoint : interpolateQ decCurve (255 / 2) = 51 / 2 := by
  rw [interpolateQ_dec]
  norm_num

/-- At multiplier 1: 10 and 50 up to 5 ms. -/
theorem variableStep_one_of_le_5ms {ticks : Nat} (h : ticks ≤ 5000) :
    variableStep built .cw ticks 1 = 10 ∧ variableStep built .ccw ticks 1 = 50 := by
  obtain ⟨hcw, hccw⟩ := interpolateQ_of_le_5ms h
  constructor
  · exact variableStep_eq_of_scaled (by rw [hcw, mul_one]) (by norm_num) (by norm_num) (by norm_num) (by norm_num)
  · exact variableStep_eq_of_scaled (by rw [hccw, mul_one]) (by norm_num) (by norm_num) (by norm_num) (by norm_num)

/-- At multiplier 1: 1 from 250 ms on. -/
theorem variableStep_one_of_250ms_le {ticks : Nat} (h : 250000 ≤ ticks) (dir : Direction) :
    variableStep built dir ticks 1 = 1 :=
  variableStep_eq_one (by rw [interpolateQ_of_250ms_le h, mul_one])

/-- At multiplier 1: the ties at 127.5 ms go up to 6 and 26. -/
theorem variableStep_one_midpoint : variableStep built .cw 127500 1 = 6 ∧ variableStep built .ccw 127500 1 = 26 := by
  have hdt : ((127500 : Nat) : Rat) / 1000 = 255 / 2 := by norm_num
  have hcw : interpolateQ (curveFor built .cw) (((127500 : Nat) : Rat) / 1000) = 11 / 2 := by
    rw [hdt]
    exact interpolateQ_inc_midpoint
  have hccw : interpolateQ (curveFor built .ccw) (((127500 : Nat) : Rat) / 1000) = 51 / 2 := by
    rw [hdt]
    exact interpolateQ_dec_midpoint
  constructor
  · exact variableStep_eq_of_scaled (by rw [hcw, mul_one]) (by norm_num) (by norm_num) (by norm_num) (by norm_num)
  · exact variableStep_eq_of_scaled (by rw [hccw, mul_one]) (by norm_num) (by norm_num) (by norm_num) (by norm_num)

/-- A detent on an empty counter leaves the signed step: it does not wrap. -/
theorem applyDetent_count_of_zero {s : State} (hs : s.count = 0#32) (dir : Direction) (now : Word) :
    (applyDetent built dir now s).count.toInt = signedBy dir (stepSize built s dir now) := by
  have hdelta := natAbs_detentDelta_mem .half s dir now
  change 1 ≤ (detentDelta built s dir now).natAbs ∧ (detentDelta built s dir now).natAbs ≤ 100 at hdelta
  rw [applyDetent_count, hs, BitVec.toInt_zero, zero_add, wrapWord_toInt_of_range (by omega) (by omega)]
  rfl

/-- Settles O34: the steps at the three intervals, as the counts they leave. -/
theorem detentsAtTheSourcesIntervals : Obligations.DetentsAtTheSourcesIntervals := by
  intro s now hv hm hs
  refine ⟨_, _, exec_detent .cw now s, exec_detent .ccw now s, ?_⟩
  simp only [yieldResult_count, applyDetent_count_of_zero hs, stepSize_of_on _ hv, hm, signedBy]
  refine ⟨fun h => ?_, fun h => ?_, fun h => ?_⟩
  · obtain ⟨hcw, hccw⟩ := variableStep_one_of_le_5ms h
    rw [hcw, hccw]
    exact ⟨rfl, rfl⟩
  · rw [variableStep_one_of_250ms_le h, variableStep_one_of_250ms_le h]
    exact ⟨rfl, rfl⟩
  · obtain ⟨hcw, hccw⟩ := variableStep_one_midpoint
    rw [h, hcw, hccw]
    exact ⟨rfl, rfl⟩

/-- On the decrement curve the raw step is at least 10 up to 205 ms (R103). -/
theorem ten_le_interpolateQ_dec {ticks : Nat} (h : ticks ≤ 205000) :
    10 ≤ interpolateQ (curveFor built .ccw) ((ticks : Rat) / 1000) := by
  have hdt : (ticks : Rat) / 1000 ≤ 205 := ticks_div_le (ms := 205) h
  change 10 ≤ interpolateQ decCurve _
  rw [interpolateQ_dec]
  split_ifs <;> linarith

/-- Settles O35: the scaled value is at most 0 in the first case and at least 100 in the others. -/
theorem cornerMultipliers : Obligations.CornerMultipliers := by
  intro s dir now hv
  simp only [stepSize_of_on _ hv]
  refine ⟨fun hm => variableStep_of_mult_nonpos _ _ hm, fun hm h => ?_, fun hm h => ?_⟩
  · refine variableStep_eq_hundred ?_
    rw [hm, (interpolateQ_of_le_5ms h).1]
    norm_num
  · refine variableStep_eq_hundred ?_
    rw [hm]
    linarith [ten_le_interpolateQ_dec h]

/-! ### The accumulator: the ties of the default curves (R104) -/

/-- At multiplier 1 the clamp does nothing: the raw step is from 1 to 50. -/
theorem clampQ_interpolateQ (dir : Direction) (dt : Rat) :
    clampQ (interpolateQ (curveFor built dir) dt) 1 100 = interpolateQ (curveFor built dir) dt := by
  refine clampQ_of_mem (one_le_interpolateQ dir dt) ?_
  have hdec : interpolateQ decCurve dt ≤ 100 := by
    rw [interpolateQ_dec]
    split_ifs <;> linarith
  cases dir with
  | cw => exact (one_le_inc_le_dec dt).2.trans hdec
  | ccw => exact hdec

/-- No integer is a tie. -/
theorem int_ne_tie (n k : Int) : (n : Rat) ≠ k + 1 / 2 := by
  intro h
  have h2 : 2 * n = 2 * k + 1 := by
    have : 2 * (n : Rat) = 2 * k + 1 := by linarith
    exact_mod_cast this
  omega

/-- A tie lies strictly between the thresholds: the flat pieces are integers. -/
theorem ticks_mem_of_tie {dir : Direction} {ticks : Nat} {k : Int}
    (h : interpolateQ (curveFor built dir) ((ticks : Rat) / 1000) = k + 1 / 2) : 5000 < ticks ∧ ticks < 250000 := by
  constructor
  · by_contra hle
    obtain ⟨hcw, hccw⟩ := interpolateQ_of_le_5ms (not_lt.mp hle)
    cases dir with
    | cw => exact int_ne_tie 10 k (by rw [← h, hcw]; norm_num)
    | ccw => exact int_ne_tie 50 k (by rw [← h, hccw]; norm_num)
  · by_contra hge
    exact int_ne_tie 1 k (by rw [← h, interpolateQ_of_250ms_le (not_lt.mp hge)]; norm_num)

/-- Both lines between the thresholds, by ticks (R103). -/
theorem interpolateQ_of_ticks_mem {ticks : Nat} (h1 : 5000 ≤ ticks) (h2 : ticks ≤ 250000) :
    interpolateQ (curveFor built .cw) ((ticks : Rat) / 1000) = 10 - 9 * ((ticks : Rat) - 5000) / 245000 ∧
      interpolateQ (curveFor built .ccw) ((ticks : Rat) / 1000) = 50 - ((ticks : Rat) - 5000) / 5000 := by
  obtain ⟨-, -, -, line, -⟩ := rawStepIsTheTwoPointInterpolation
  obtain ⟨hcw, hccw⟩ := line _ (le_ticks_div (ms := 5) h1) (ticks_div_le (ms := 250) h2)
  constructor
  · rw [hcw]; ring
  · rw [hccw]; ring

/-- The one tie of the increment curve. -/
theorem interpolateQ_inc_tie_iff (ticks : Nat) :
    (∃ k : Int, interpolateQ (curveFor built .cw) ((ticks : Rat) / 1000) = k + 1 / 2) ↔ ticks = 127500 := by
  constructor
  · rintro ⟨k, hk⟩
    obtain ⟨h1, h2⟩ := ticks_mem_of_tie hk
    rw [(interpolateQ_of_ticks_mem h1.le h2.le).1] at hk
    have hint : 9 * ((ticks : Int) - 5000) = 122500 * (19 - 2 * k) := by
      have : 9 * ((ticks : Rat) - 5000) = 122500 * (19 - 2 * k) := by linarith
      exact_mod_cast this
    omega
  · rintro rfl
    refine ⟨5, ?_⟩
    rw [(interpolateQ_of_ticks_mem (by norm_num) (by norm_num)).1]
    norm_num

/-- The 49 ties of the decrement curve. -/
theorem interpolateQ_dec_tie_iff (ticks : Nat) :
    (∃ k : Int, interpolateQ (curveFor built .ccw) ((ticks : Rat) / 1000) = k + 1 / 2) ↔
      ∃ j : Nat, j < 49 ∧ ticks = 7500 + 5000 * j := by
  constructor
  · rintro ⟨k, hk⟩
    obtain ⟨h1, h2⟩ := ticks_mem_of_tie hk
    rw [(interpolateQ_of_ticks_mem h1.le h2.le).2] at hk
    have hint : (ticks : Int) - 5000 = 2500 * (99 - 2 * k) := by
      have : (ticks : Rat) - 5000 = 2500 * (99 - 2 * k) := by linarith
      exact_mod_cast this
    exact ⟨(49 - k).toNat, by omega, by omega⟩
  · rintro ⟨j, hj, rfl⟩
    refine ⟨49 - j, ?_⟩
    rw [(interpolateQ_of_ticks_mem (by omega) (by omega)).2]
    push_cast
    ring

/-- Settles O36: the clamp does nothing at multiplier 1, so the ties are those of the two lines. -/
theorem tiesOfTheDefaultCurves : Obligations.TiesOfTheDefaultCurves := by
  intro ticks
  rw [show incCurve = curveFor built .cw from rfl, show decCurve = curveFor built .ccw from rfl]
  simp only [clampQ_interpolateQ]
  exact ⟨interpolateQ_inc_tie_iff ticks, interpolateQ_dec_tie_iff ticks⟩

end Sys2Proof.Machine

/-! ### The accumulator: the configuration writes (41_accumulator.md section 3) -/

namespace Sys2Proof.Machine

/-- Settles O39: such a word denotes no number, so `SET_MULT` declines. -/
theorem setMultOfNoNumberChangesNothing : Obligations.SetMultOfNoNumberChangesNothing := by
  intro s bits h
  have hnone : multOperandValue built (.word bits) = none := binary32_of_exponent_255 (by rw [h]; rfl)
  rw [exec_eq_execWith, execWith_setMult_none hnone]
  rfl

/-- A trace of two operations. -/
theorem runTrace_pair {c : Config} {i j : Instr} {s r t : State} (hi : execWith c i s = .next r)
    (hj : execWith c j r = .next t) : runTrace c [i, j] s = .next t := by
  rw [runTrace_cons hi, runTrace_cons hj]
  rfl

/-- Settles O40: the two stores write different registers, and the detent between reads both as they are then. -/
theorem configureIsTwoStoresInEitherOrder : Obligations.ConfigureIsTwoStoresInEitherOrder := by
  intro s en q dir now
  have store (r : State) : execWith built (.setMult (.value q)) r = .next (yieldResult (setMult r q) .nothing) :=
    execWith_setMult_some rfl r
  refine ⟨rfl, fun o ho => ?orders, ⟨_, rfl, ?flagFirst⟩, ⟨_, rfl, ?multiplierFirst⟩⟩
  case orders =>
    obtain rfl | rfl : o = [.setVs en, .setMult (.value q)] ∨ o = [.setMult (.value q), .setVs en] := by
      simpa [configureOrders] using ho
    · rw [runTrace_pair (execWith_setVs ..) (store _)]
      simp [yieldResult, setMult, setVsEn]
    · rw [runTrace_pair (store _) (execWith_setVs ..)]
      simp [yieldResult, setMult, setVsEn]
  case flagFirst => exact wrapWord_toInt _
  case multiplierFirst => exact wrapWord_toInt _

/-! ### The accumulator: the timing base (41_accumulator.md R101, section 4) -/

/-- The step with the interval written from the value of `LAST_TS` (R101, R105). -/
theorem detentDelta_of_lastTs {s : State} {base : Word} (h : s.lastTs = base) (c : Config) (dir : Direction) (now : Word) :
    detentDelta c s dir now = signedBy dir (if s.vsEn then variableStep c dir (now - base).toNat s.mult else 1) := by
  subst h
  rfl

/-- A detent adds the step of the interval since the value of `LAST_TS` (R106). -/
theorem ranDetent_count_of_lastTs {c : Config} {i : Instr} {s t : State} {dir : Direction} {now base : Word}
    (h : execWith c i s = .next t) (hd : RanDetent i s t dir now) (hbase : s.lastTs = base) :
    t.count.toInt = wrapInt 32 (s.count.toInt +
      signedBy dir (if s.vsEn then variableStep c dir (now - base).toNat s.mult else 1)) := by
  rw [(execWith_ranDetent h hd).2, wrapWord_toInt, detentDelta_of_lastTs hbase]

/-- Settles O41: a detent records its time, and operations that ran none keep it. -/
theorem timingBaseIsTheMostRecentDetent : Obligations.TimingBaseIsTheMostRecentDetent := by
  intro c s r u t i j d1 d2 now1 now2 mid new hi hd1 hmid hres hno hj hd2
  have hbase : u.lastTs = now1 := (runTrace_ranNoDetent hmid hres hno).trans (execWith_ranDetent hi hd1).1
  exact ranDetent_count_of_lastTs hj hd2 hbase

/-- After a trace from reset that ran no detent `LAST_TS` is `TS_RESET`. -/
theorem lastTs_of_reset {c : Config} {is : List Instr} {u : State} (h : runTrace c is (State.resetOf c) = .next u)
    (hno : RanNoDetent is u.results) : u.lastTs = c.tsReset :=
  runTrace_ranNoDetent h (by simp) hno

/-- Where `LAST_TS` is 0 the interval is the reading of the time source. -/
theorem dtTicks_of_lastTs_zero {s : State} (h : s.lastTs = 0#32) (now : Word) : dtTicks s now = now.toNat := by
  rw [dtTicks, h, BitVec.sub_zero]

/-- Settles O42: `LAST_TS` stays at its reset value up to the first detent, which reads it. -/
theorem firstIntervalIsMeasuredFromTsReset : Obligations.FirstIntervalIsMeasuredFromTsReset := by
  refine ⟨fun c u now is => ⟨lastTs_of_reset, fun h => by rw [dtTicks, h]⟩, fun s now hts hv hm => ?steps,
    fun is u t j dir now hrun hno hj hd => ?first⟩
  case steps =>
    have hdt := dtTicks_of_lastTs_zero hts now
    simp only [stepSize_of_on _ hv, hm, hdt]
    exact ⟨trivial, fun h dir => variableStep_one_of_250ms_le h dir, fun h => variableStep_one_of_le_5ms h.le⟩
  case first =>
    have hts : u.lastTs = 0#32 := lastTs_of_reset hrun hno
    rw [exec_eq_execWith] at hj
    simpa using ranDetent_count_of_lastTs hj hd hts

/-! ### The drain and initialisation: INJECT and INIT (42_drain.md section 2, 70_reset_and_hazards.md section 1) -/

/-- Settles O45: `INJECT` is the one register update `addCount`. -/
theorem injectAddsItsOperand : Obligations.InjectAddsItsOperand := by
  intro s v
  refine ⟨yieldResult (addCount s (injectValue v)) .nothing, ?_, rfl, wrapWord_toInt _⟩
  rw [exec_eq_execWith, execWith_inject]

/-- Settles O50: `INIT` is the one register update `setArmed` where `ARMED` is clear, and declines where it is set. -/
theorem initArmsOnce : Obligations.InitArmsOnce := by
  intro s
  rw [exec_eq_execWith]
  exact ⟨fun ha => execWith_init_first _ ha, fun ha => execWith_init_again _ ha⟩

/-! ### STATE[7:4] is not observable (10_state.md section 2, D24) -/

@[simp] theorem setStateReg_self (s : State) : setStateReg s s.stateReg = s := rfl

/-- The handler reads nothing of `STATE` but the row that fetched the entry (R81). -/
theorem edgeWithEntry_setStateReg (c : Config) (e b : Byte) (now : Word) (s : State) :
    edgeWithEntry c e now (setStateReg s b) = edgeWithEntry c e now s := rfl

/-- An operation that completes, completes alike with another byte in `STATE` that names the same row. -/
theorem execWith_setStateReg {c : Config} {i : Instr} {s t : State} {b : Byte} (hb : entryNext b = rowOf s)
    (h : execWith c i s = .next t) :
    ∃ b', entryNext b' = rowOf t ∧ execWith c i (setStateReg s b) = .next (setStateReg t b') := by
  have hrow : rowOf (setStateReg s b) = rowOf s := hb
  cases performs_of_execWith h with
  | edgeUnarmed x now ha => exact ⟨b, hb, execWith_edge_unarmed (s := setStateReg s b) ha x now⟩
  | edge x now e ha he =>
    refine ⟨(edgeWithEntry c e now s).stateReg, rfl, ?_⟩
    rw [execWith_edge_of_entry (s := setStateReg s b) ha (by rwa [hrow]), edgeWithEntry_setStateReg, setStateReg_self]
  | setMult m q hm => exact ⟨b, hb, execWith_setMult_some hm _⟩
  | setMultDeclined m hm => exact ⟨b, hb, execWith_setMult_none hm _⟩
  | init ha => exact ⟨b, hb, execWith_init_first c ha⟩
  | initDeclined ha => exact ⟨b, hb, execWith_init_again c ha⟩
  | _ => exact ⟨b, hb, rfl⟩

/-- So does one that faults. -/
theorem execWith_setStateReg_fault {c : Config} {i : Instr} {s : State} {b : Byte} {r : Fault} (hb : entryNext b = rowOf s)
    (h : execWith c i s = .fault r) : execWith c i (setStateReg s b) = .fault r := by
  rw [execWith_eq_fault_iff] at h ⊢
  rwa [show rowOf (setStateReg s b) = rowOf s from hb]

/-- Along a trace that completes. -/
theorem runTrace_setStateReg {c : Config} {is : List Instr} {s t : State} {b : Byte} (hb : entryNext b = rowOf s)
    (h : runTrace c is s = .next t) :
    ∃ b', entryNext b' = rowOf t ∧ runTrace c is (setStateReg s b) = .next (setStateReg t b') := by
  induction is generalizing s b with
  | nil => cases h; exact ⟨b, hb, rfl⟩
  | cons i is ih =>
    obtain ⟨u, hu, ht⟩ := runTrace_cons_next h
    obtain ⟨b1, hb1, hu'⟩ := execWith_setStateReg hb hu
    rw [runTrace_cons hu']
    exact ih hb1 ht

/-- Along a trace that faults. -/
theorem runTrace_setStateReg_fault {c : Config} {is : List Instr} {s : State} {b : Byte} {r : Fault}
    (hb : entryNext b = rowOf s) (h : runTrace c is s = .fault r) : runTrace c is (setStateReg s b) = .fault r := by
  induction is generalizing s b with
  | nil => cases h
  | cons i is ih =>
    cases hi : execWith c i s with
    | next u =>
      obtain ⟨b1, hb1, hu'⟩ := execWith_setStateReg hb hi
      rw [runTrace_cons hi] at h
      rw [runTrace_cons hu']
      exact ih hb1 h
    | fault r' =>
      rw [runTrace_cons_fault hi] at h
      rw [runTrace_cons_fault (execWith_setStateReg_fault hb hi), h]
    | refused r' =>
      rw [runTrace_cons_refused hi] at h
      cases h

/-- Settles O23: the second state is the first with another byte of the same row, and every operation keeps that relation. -/
theorem directionBitsAreNotObservable : Obligations.DirectionBitsAreNotObservable := by
  intro c is s1 s2 hrow hs2
  have hs2' : s2 = setStateReg s1 s2.stateReg := hs2
  rw [hs2']
  refine ⟨fun t1 h => ?_, fun r h => runTrace_setStateReg_fault hrow.symm h⟩
  obtain ⟨b', hb', h'⟩ := runTrace_setStateReg hrow.symm h
  exact ⟨_, h', hb', rfl⟩

end Sys2Proof.Machine

/-! ### The drain: the conservation law (42_drain.md R133) -/

namespace Sys2Proof.Machine

section TraceSums

variable {c : Config} {i : Instr} {is : List Instr} {s t : State}

/-- The turns of a trace are those of its first operation and of the rest. -/
theorem turnSum_cons (h : execWith c i s = .next t) : turnSum c (i :: is) s = turnOf c i s + turnSum c is t := by
  simp [turnSum, h]

/-- No addition of a trace wraps exactly if neither the first nor one of the rest does. -/
theorem noWrap_cons (h : execWith c i s = .next t) :
    NoWrap c (i :: is) s ↔
      (-2 ^ 31 ≤ s.count.toInt + (turnOf c i s + injectOf i) ∧ s.count.toInt + (turnOf c i s + injectOf i) < 2 ^ 31) ∧
        NoWrap c is t := by
  simp [NoWrap, h]

/-- The turns of a trace in two parts. -/
theorem turnSum_append {js : List Instr} (h : runTrace c is s = .next t) :
    turnSum c (is ++ js) s = turnSum c is s + turnSum c js t := by
  induction is generalizing s with
  | nil => cases h; simp [turnSum]
  | cons i is ih =>
    obtain ⟨u, hu, ht⟩ := runTrace_cons_next h
    rw [List.cons_append, turnSum_cons hu, turnSum_cons hu, ih ht, add_assoc]

/-- The results a trace adds are those of its first operation, then those of the rest. -/
theorem runTrace_cons_results {new : List Result} (h : runTrace c (i :: is) s = .next t)
    (hres : t.results = s.results ++ new) :
    ∃ u a b, execWith c i s = .next u ∧ u.results = s.results ++ a ∧
      runTrace c is u = .next t ∧ t.results = u.results ++ b ∧ new = a ++ b := by
  obtain ⟨u, hu, ht⟩ := runTrace_cons_next h
  obtain ⟨a, ha⟩ := runTrace_results (runTrace_cons (is := []) hu)
  obtain ⟨b, hb⟩ := runTrace_results ht
  refine ⟨u, a, b, hu, ha, ht, hb, ?_⟩
  rwa [hb, ha, List.append_assoc, List.append_cancel_left_eq, eq_comm] at hres

/-- Only a `DRAIN` drains. -/
theorem drainedSum_results_of_ne_drain (hi : i ≠ .drain) (h : execWith c i s = .next t) :
    drainedSum t.results = drainedSum s.results := by
  cases performs_of_execWith h with
  | drain => exact absurd rfl hi
  | _ => simp

/-- The step lemma of the conservation law: drained plus `COUNT` grows by what the operation turns or injects. -/
theorem execWith_conserves (h : execWith c i s = .next t) :
    (drainedSum t.results + t.count.toInt) % 2 ^ 32 =
        (drainedSum s.results + s.count.toInt + (turnOf c i s + injectOf i)) % 2 ^ 32 ∧
      (-2 ^ 31 ≤ s.count.toInt + (turnOf c i s + injectOf i) → s.count.toInt + (turnOf c i s + injectOf i) < 2 ^ 31 →
        drainedSum t.results + t.count.toInt = drainedSum s.results + s.count.toInt + (turnOf c i s + injectOf i)) := by
  obtain rfl | hi := eq_or_ne i .drain
  · rw [execWith_drain] at h
    cases h
    simp [turnOf, injectOf]
  · rw [drainedSum_results_of_ne_drain hi h, execWith_count hi h]
    have hmod := wrapWord_toInt_emod (s.count.toInt + (turnOf c i s + injectOf i))
    refine ⟨by omega, fun lo hi => ?_⟩
    rw [wrapWord_toInt_of_range lo hi, add_assoc]

end TraceSums

/-- Settles O46: by induction on the trace. -/
theorem countIsConserved : Obligations.CountIsConserved := by
  intro c is s t h
  induction is generalizing s with
  | nil =>
    cases h
    simp [turnSum, injectSum]
  | cons i is ih =>
    obtain ⟨u, hu, ht⟩ := runTrace_cons_next h
    obtain ⟨hmod, hexact⟩ := execWith_conserves hu
    obtain ⟨ihmod, ihexact⟩ := ih u ht
    simp only [turnSum_cons hu, injectSum, noWrap_cons hu]
    refine ⟨by omega, fun ⟨⟨lo, hi⟩, hrest⟩ => ?_⟩
    have h1 := hexact lo hi
    have h2 := ihexact hrest
    omega

/-! ### The drain: the net count is the events counted (42_drain.md section 1, C5) -/

/-- Only an `EDGE` yields an event (R80). -/
theorem execWith_result_of_not_edge {c : Config} {i : Instr} {s t : State} (h : execWith c i s = .next t)
    (hi : isEdge i = false) : ∃ r, t.results = s.results ++ [r] ∧ ∀ ev, r ≠ .event ev := by
  cases performs_of_execWith h with
  | edgeUnarmed _ _ _ => cases hi
  | edge _ _ _ _ _ => cases hi
  | _ => exact ⟨_, rfl, by simp⟩

/-- With variable speed off an operation that is no issued `DETENT` turns by the events it yields: +1 for `CW`, -1 for
`CCW`. -/
theorem turnOf_eq_events {c : Config} {i : Instr} {s t : State} {new : List Result} (h : execWith c i s = .next t)
    (hres : t.results = s.results ++ new) (hd : isDetent i = false) (hoff : isEdge i = false ∨ s.vsEn = false) :
    turnOf c i s = (eventCount .cw new : Int) - eventCount .ccw new := by
  cases performs_of_execWith h with
  | edgeUnarmed x now ha =>
    obtain rfl : new = [] := List.self_eq_append_right.mp hres
    simp [turnOf, ha, eventCount]
  | edge x now e ha he =>
    have hv : s.vsEn = false := by simpa [isEdge] using hoff
    rw [edgeWithEntry_results, List.append_cancel_left_eq] at hres
    subst hres
    rw [turnOf_edge ha he]
    cases entryEvent e <;> simp [detentDelta, stepSize_of_off c hv, signedBy, eventCount]
  | detent d now => simp [isDetent] at hd
  | _ =>
    obtain ⟨r, hr, hev⟩ := execWith_result_of_not_edge h rfl
    rw [hr, List.append_cancel_left_eq] at hres
    subst hres
    simp [turnOf, eventCount, hev]

/-- `VS_EN` stays 0 under every operation but `SET_VS 1` (R27). -/
theorem execWith_keeps_off {c : Config} {i : Instr} {s t : State} (hi : i ≠ .setVs true) (hs : s.vsEn = false)
    (h : execWith c i s = .next t) : t.vsEn = false := by
  obtain ⟨-, -, -, hvs, -⟩ := eachRegisterHasItsWriters c i s t h
  by_contra hne
  have hon : t.vsEn = true := by simpa using hne
  exact hi (hon ▸ hvs (by simp [hon, hs]))

/-- So a trace turns by the events it yields: one without `EDGE`s, or one with variable speed off throughout. -/
theorem turnSum_eq_events {c : Config} {is : List Instr} {s t : State} {new : List Result}
    (h : runTrace c is s = .next t) (hres : t.results = s.results ++ new) (hd : ∀ i ∈ is, isDetent i = false)
    (hoff : (∀ i ∈ is, isEdge i = false) ∨ s.vsEn = false ∧ ∀ i ∈ is, i ≠ .setVs true) :
    turnSum c is s = (eventCount .cw new : Int) - eventCount .ccw new := by
  induction is generalizing s new with
  | nil =>
    cases h
    obtain rfl : new = [] := List.self_eq_append_right.mp hres
    simp [turnSum, eventCount]
  | cons i is ih =>
    obtain ⟨u, a, b, hu, ha, ht, hb, rfl⟩ := runTrace_cons_results h hres
    obtain ⟨hdi, hdis⟩ := List.forall_mem_cons.mp hd
    have hhead : isEdge i = false ∨ s.vsEn = false :=
      hoff.imp (fun hno => hno i List.mem_cons_self) And.left
    have htail : (∀ j ∈ is, isEdge j = false) ∨ u.vsEn = false ∧ ∀ j ∈ is, j ≠ .setVs true := by
      obtain hno | ⟨hs, hset⟩ := hoff
      · exact .inl fun j hj => hno j (List.mem_cons_of_mem i hj)
      · exact .inr ⟨execWith_keeps_off (hset i List.mem_cons_self) hs hu, fun j hj => hset j (List.mem_cons_of_mem i hj)⟩
    rw [turnSum_cons hu, turnOf_eq_events hu ha hdi hhead, ih ht hb hdis htail, eventCount_append, eventCount_append]
    push_cast
    ring

/-- Settles O47: the conservation law with the turns counted as events; a run from reset in the part before `SET_VS 0`, which
yields no event, and the part after it. -/
theorem netCountIsClockwiseLessCounterClockwiseEvents : Obligations.NetCountIsClockwiseLessCounterClockwiseEvents := by
  refine ⟨fun m is s t hoff his h => ?anyState, fun m first is t hfirst his h => ?fromReset⟩
  case anyState =>
    obtain ⟨new, hres⟩ := runTrace_results h
    obtain ⟨hmod, hexact⟩ := countIsConserved (configOf m) is s t h
    have hturn := turnSum_eq_events h hres (fun i hi => (his i hi).2) (.inr ⟨hoff, fun i hi => (his i hi).1⟩)
    rw [hres, drainedSum_append, hturn] at hmod hexact
    refine ⟨new, hres, ?_, fun hw => ?_⟩
    · omega
    · have := hexact hw
      omega
  case fromReset =>
    have hsplit : first ++ .setVs false :: is = (first ++ [.setVs false]) ++ is := by simp
    have hpre : ∀ i ∈ first ++ [.setVs false], isEdge i = false ∧ isDetent i = false :=
      List.forall_mem_append.mpr ⟨hfirst, by simp [isEdge, isDetent]⟩
    have hinj : injectSum (first ++ [.setVs false] ++ is) = injectSum (first ++ is) := by simp [injectSum, injectOf]
    rw [hsplit] at h ⊢
    obtain ⟨v, hv, ht⟩ := runTrace_append_next h
    obtain ⟨u, -, huv⟩ := runTrace_append_next hv
    have hoff : v.vsEn = false := by cases huv; rfl
    obtain ⟨a, ha⟩ := runTrace_results hv
    obtain ⟨b, hb⟩ := runTrace_results ht
    have hturn : turnSum (configOf m) (first ++ [.setVs false] ++ is) (State.resetOf (configOf m)) =
        (eventCount .cw t.results : Int) - eventCount .ccw t.results := by
      rw [turnSum_append hv, turnSum_eq_events hv ha (fun i hi => (hpre i hi).2) (.inl fun i hi => (hpre i hi).1),
        turnSum_eq_events ht hb (fun i hi => (his i hi).2) (.inr ⟨hoff, fun i hi => (his i hi).1⟩), hb, ha]
      simp only [resetOf_results, List.nil_append, eventCount_append]
      push_cast
      ring
    obtain ⟨hmod, hexact⟩ := countIsConserved (configOf m) _ _ t h
    rw [hturn, hinj, resetOf_results, resetOf_count] at hmod hexact
    simp only [drainedSum, BitVec.toInt_zero, zero_add] at hmod hexact
    exact ⟨hmod, hexact⟩

/-! ### The drain: the order of drains and injections (20_memory.md R47, 42_drain.md section 1) -/

/-- The registers the interrupt context reads or alone writes hold the same values: all but `COUNT`. -/
def SameIrqView (s t : State) : Prop :=
  t.stateReg = s.stateReg ∧ t.lastTs = s.lastTs ∧ t.vsEn = s.vsEn ∧ t.mult = s.mult ∧ t.armed = s.armed

theorem SameIrqView.refl (s : State) : SameIrqView s s := ⟨rfl, rfl, rfl, rfl, rfl⟩

theorem SameIrqView.symm {s t : State} (h : SameIrqView s t) : SameIrqView t s := by
  obtain ⟨h1, h2, h3, h4, h5⟩ := h
  exact ⟨h1.symm, h2.symm, h3.symm, h4.symm, h5.symm⟩

theorem SameIrqView.trans {s t u : State} (h : SameIrqView s t) (h' : SameIrqView t u) : SameIrqView s u := by
  obtain ⟨h1, h2, h3, h4, h5⟩ := h
  obtain ⟨h1', h2', h3', h4', h5'⟩ := h'
  exact ⟨h1'.trans h1, h2'.trans h2, h3'.trans h3, h4'.trans h4, h5'.trans h5⟩

/-- Both complete in states with the same view, or both fault. -/
inductive SameIrqOutcome : Host.Outcome State Fault Refusal → Host.Outcome State Fault Refusal → Prop
  | next {s t : State} (h : SameIrqView s t) : SameIrqOutcome (.next s) (.next t)
  | fault (r : Fault) : SameIrqOutcome (.fault r) (.fault r)

section Interleaving

variable {c : Config} {i : Instr} {s t : State}

/-- A counting operation that the interrupt context does not issue is the polling context's. -/
theorem issuer_poll_of_counting (hc : isCounting i = true) (hi : issuer i ≠ some .irq) : issuer i = some .poll := by
  cases i with
  | edge _ _ => exact absurd rfl hi
  | detent _ _ => exact absurd rfl hi
  | drain => rfl
  | inject _ => rfl
  | _ => simp [isCounting] at hc

/-- The operations of the polling context that count keep the view, and turn nothing. -/
theorem execWith_poll_sameIrqView (hc : isCounting i = true) (hp : issuer i = some .poll) (c : Config) (s : State) :
    (∃ t, execWith c i s = .next t ∧ SameIrqView s t) ∧ turnOf c i s = 0 := by
  cases i with
  | drain => exact ⟨⟨_, rfl, rfl, rfl, rfl, rfl, rfl⟩, rfl⟩
  | inject v => exact ⟨⟨_, rfl, rfl, rfl, rfl, rfl, rfl⟩, rfl⟩
  | edge _ _ => simp [issuer] at hp
  | detent _ _ => simp [issuer] at hp
  | _ => simp [isCounting] at hc

/-- The handler's work on an entry writes the view by the view alone. -/
theorem edgeWithEntry_sameIrqView (h : SameIrqView s t) (c : Config) (e : Byte) (now : Word) :
    SameIrqView (edgeWithEntry c e now s) (edgeWithEntry c e now t) := by
  obtain ⟨-, hts, hvs, hmult, harmed⟩ := h
  refine ⟨by simp, ?_, by simpa, by simpa, by simpa⟩
  cases hev : entryEvent e <;> simp [edgeWithEntry, hev, hts]

/-- An operation of the interrupt context turns by the view alone. -/
theorem turnOf_sameIrqView (h : SameIrqView s t) (c : Config) (i : Instr) : turnOf c i t = turnOf c i s := by
  obtain ⟨hstate, hts, hvs, hmult, harmed⟩ := h
  have hdelta := detentDelta_congr (c := c) hvs hts hmult
  have hrow := rowOf_congr hstate
  cases i <;> simp [turnOf, hdelta, hrow, harmed]

/-- It completes, and writes the view, by the view alone. -/
theorem execWith_irq_sameIrqOutcome (hi : issuer i = some .irq) (h : SameIrqView s t) (c : Config) :
    SameIrqOutcome (execWith c i s) (execWith c i t) := by
  have hview := h
  obtain ⟨hstate, hts, hvs, hmult, harmed⟩ := h
  have hrow := rowOf_congr hstate
  obtain ⟨x, now, rfl⟩ | ⟨d, now, rfl⟩ := eq_edge_or_detent_of_issuer_irq hi
  · cases ha : s.armed with
    | false =>
      rw [execWith_edge_unarmed ha, execWith_edge_unarmed (harmed.trans ha)]
      exact .next hview
    | true =>
      cases he : tableEntry c (rowOf s) x with
      | some e =>
        rw [execWith_edge_of_entry ha he, execWith_edge_of_entry (harmed.trans ha) (hrow ▸ he)]
        exact .next (edgeWithEntry_sameIrqView hview c e now)
      | none =>
        rw [(execWith_eq_fault_iff (r := .rowOutOfRange)).mpr ⟨ha, x, now, rfl, he⟩,
          (execWith_eq_fault_iff (r := .rowOutOfRange)).mpr ⟨harmed.trans ha, x, now, rfl, hrow ▸ he⟩]
        exact .fault _
  · exact .next ⟨hstate, rfl, hvs, hmult, harmed⟩

/-- A trace of counting operations completes with the same view, and turns the same, as its interrupt-context operations
alone. -/
theorem runTrace_filter_irq (is : List Instr) (hc : ∀ i ∈ is, isCounting i = true) (h : SameIrqView s t) :
    SameIrqOutcome (runTrace c (is.filter fun i => issuer i = some .irq) s) (runTrace c is t) ∧
      turnSum c is t = turnSum c (is.filter fun i => issuer i = some .irq) s := by
  induction is generalizing s t with
  | nil => exact ⟨.next h, rfl⟩
  | cons i is ih =>
    obtain ⟨hci, hcis⟩ := List.forall_mem_cons.mp hc
    by_cases hi : issuer i = some .irq
    · rw [List.filter_cons_of_pos (by simpa using hi)]
      have hout := execWith_irq_sameIrqOutcome hi h c
      have hhead := turnOf_sameIrqView h c i
      generalize hs : execWith c i s = o, ht : execWith c i t = p at hout
      cases hout with
      | next hv =>
        obtain ⟨hrun, hturn⟩ := ih hcis hv
        rw [runTrace_cons hs, runTrace_cons ht, turnSum_cons hs, turnSum_cons ht, hturn, hhead]
        exact ⟨hrun, rfl⟩
      | fault r =>
        rw [runTrace_cons_fault hs, runTrace_cons_fault ht]
        exact ⟨.fault r, by simp [turnSum, hs, ht, hhead]⟩
    · obtain ⟨⟨u, hu, hv⟩, hzero⟩ := execWith_poll_sameIrqView hci (issuer_poll_of_counting hci hi) c t
      rw [List.filter_cons_of_neg (by simpa using hi), runTrace_cons hu, turnSum_cons hu, hzero, zero_add]
      exact ih hcis (h.trans hv)

end Interleaving

/-- What a trace injects is what its polling-context operations inject. -/
theorem injectSum_filter_poll (is : List Instr) : injectSum (is.filter fun i => issuer i = some .poll) = injectSum is := by
  induction is with
  | nil => rfl
  | cons i is ih =>
    by_cases hi : issuer i = some .poll
    · rw [List.filter_cons_of_pos (by simpa using hi), injectSum, injectSum, ih]
    · have hzero : injectOf i = 0 := injectOf_eq_zero fun v hv => hi (by rw [hv]; rfl)
      rw [List.filter_cons_of_neg (by simpa using hi), injectSum, ih, hzero, zero_add]

/-- Two traces of counting operations with the same interrupt-context operations turn the same, and where one completes the
other does, with the same view. -/
theorem runTrace_of_same_irq {c : Config} {is js : List Instr} {s t : State} (his : ∀ i ∈ is, isCounting i = true)
    (hjs : ∀ j ∈ js, isCounting j = true)
    (hirq : is.filter (fun i => issuer i = some .irq) = js.filter fun j => issuer j = some .irq)
    (h : runTrace c is s = .next t) :
    turnSum c is s = turnSum c js s ∧ ∃ u, runTrace c js s = .next u ∧ SameIrqView t u := by
  obtain ⟨hi, hturni⟩ := runTrace_filter_irq (c := c) is his (.refl s)
  obtain ⟨hj, hturnj⟩ := runTrace_filter_irq (c := c) js hjs (.refl s)
  refine ⟨by rw [hturni, hturnj, hirq], ?_⟩
  rw [hirq, h] at hi
  generalize runTrace c (js.filter fun j => issuer j = some .irq) s = o at hi hj
  generalize runTrace c js s = p at hj
  cases hi with
  | next hv =>
    cases hj with
    | next hv' => exact ⟨_, rfl, hv.symm.trans hv'⟩

/-- Settles O48: both interleavings turn and inject the same in all, and the conservation law does the rest. -/
theorem interleavingDoesNotChangeTheTotal : Obligations.InterleavingDoesNotChangeTheTotal := by
  intro c is js s t his hjs hirq hpoll h
  obtain ⟨hturn, u, hu, hstate, hts, -⟩ := runTrace_of_same_irq his hjs hirq h
  have hinj : injectSum is = injectSum js := by rw [← injectSum_filter_poll, hpoll, injectSum_filter_poll]
  refine ⟨u, hu, hstate, hts, ?_⟩
  rw [(countIsConserved c js s u hu).1, (countIsConserved c is s t h).1, hturn, hinj]

/-! ### The drain: no wrap within 21,474,836 operations (70_reset_and_hazards.md section 2) -/

/-- An operation turns by at most 100 (R104, R133). -/
theorem natAbs_turnOf_le (m : Mode) (i : Instr) (s : State) : (turnOf (configOf m) i s).natAbs ≤ 100 := by
  cases i with
  | edge x now =>
    rw [turnOf]
    split
    · split
      · exact (natAbs_detentDelta_mem m s _ now).2
      · exact Nat.zero_le _
    · exact Nat.zero_le _
  | detent d now => exact (natAbs_detentDelta_mem m s d now).2
  | _ => exact Nat.zero_le _

/-- Without `INJECT` an operation moves a counter well inside its range by at most 100. -/
theorem natAbs_count_le_add_hundred {m : Mode} {i : Instr} {s t : State} (h : execWith (configOf m) i s = .next t)
    (hi : ∀ x, i ≠ .inject x) (hs : s.count.toInt.natAbs + 100 < 2 ^ 31) :
    t.count.toInt.natAbs ≤ s.count.toInt.natAbs + 100 := by
  obtain rfl | hd := eq_or_ne i .drain
  · rw [execWith_drain] at h
    cases h
    exact Nat.zero_le _
  · have hturn := natAbs_turnOf_le m i s
    rw [execWith_count hd h, injectOf_eq_zero hi, wrapWord_toInt_of_range (by omega) (by omega)]
    omega

/-- No addition wraps in a trace without `INJECT` whose length leaves 100 of the range to each operation. -/
theorem noWrap_of_length {m : Mode} {is : List Instr} {s : State} (hi : ∀ i ∈ is, ∀ x, i ≠ .inject x)
    (hs : s.count.toInt.natAbs + 100 * is.length < 2 ^ 31) : NoWrap (configOf m) is s := by
  induction is generalizing s with
  | nil => trivial
  | cons i is ih =>
    obtain ⟨hhead, htail⟩ := List.forall_mem_cons.mp hi
    rw [List.length_cons] at hs
    have hturn := natAbs_turnOf_le m i s
    refine ⟨by rw [injectOf_eq_zero hhead]; omega, ?_⟩
    cases h : execWith (configOf m) i s with
    | next t =>
      have hcount := natAbs_count_le_add_hundred h hhead (by omega)
      exact ih htail (by omega)
    | fault r => trivial
    | refused r => trivial

/-- Settles O49: 21,474,836 operations of at most 100 each stay below 2^31. -/
theorem noWrapWithinTwentyOneMillionEvents : Obligations.NoWrapWithinTwentyOneMillionEvents := by
  intro m is s hs hlen hi
  refine noWrap_of_length hi ?_
  rw [hs, BitVec.toInt_zero, Int.natAbs_zero]
  omega

end Sys2Proof.Machine
